-- ==== Sys2Proof/Word.lean ====
section
/-! DEFINITION. The plainest data of the CORE: a bit, a sequence of bits, the command word, a label (spec/00_scope.md R11, R13; spec/10_state.md R20). -/

namespace Sys2Proof

/-- A Bit: "a binary value, `0` or `1`. Invariant: no other value is representable" (R11). `true` is the bit 1, `false` the bit 0. -/
abbrev Bit := Bool

/-- A BitSequence: "an ordered, finite sequence of Bit" (R11). Index 0, the head of the list, is the first bit in sequence order. -/
abbrev BitSeq := List Bit

/-- The 8-bit command word, bit 7 most significant (R80). -/
abbrev Word8 := BitVec 8

/-- A label of the buffer `LBL`: a natural number below 256 (R20, R28). The bound is an invariant of the machine (Safety.lean). -/
abbrev Label := Nat

end Sys2Proof
end

