-- ==== Sys2Proof/Config.lean ====
section
/-! DEFINITION. What a build of the CORE fixes: the table ROMs (spec/00_scope.md R10, spec/10_state.md R20 to R24). The contents a build takes by default are in Machine/Tables.lean. -/

namespace Sys2Proof

/-- The SymbolTables, "Built once at startup; never mutated" (R24). They are parameters of the hardware (R10, R21): State holds them, so
that a claim over every state is a claim over every table.

No free value stands here: the spec leaves no result of any command open, and the tables are parameters held as plain data. -/
structure Roms where
  /-- `T45`: 16 words of 5 bits; bit 4 of a word is the first bit of the codeword (R22). -/
  t45   : Vector (BitVec 5) 16
  /-- `T810V`: the presence bit of each 8B/10B entry, 256 words of 1 bit (R23). -/
  t810v : Vector Bit 256
  /-- `T810`: 256 words of 10 bits; bit 9 of a word is the first bit of the codeword (R23). -/
  t810  : Vector (BitVec 10) 256
deriving DecidableEq, Repr

end Sys2Proof
end

