-- ==== Sys2Proof/Machine/Tables.lean ====
section
/-! DEFINITION. The contents of the table ROMs a build has by default, and the constraints on any contents (spec/41_symbolcodec_4b5b.md R134, R135; spec/42_symbolcodec_8b10b.md R153, R159). -/

namespace Sys2Proof.Machine

/-- The default `T45` (R134). Words 3, 10 and 13 are the source's; the other 13 are the spec's default from general knowledge
(PRESUMED, log 5), so a claim that rests on one of them must name this table (R135). -/
def defaultT45 : Vector (BitVec 5) 16 :=
  #v[0b11110, 0b01001, 0b10100, 0b10101, 0b01010, 0b01011, 0b01110, 0b01111,
     0b10010, 0b10011, 0b10110, 0b10111, 0b11010, 0b11011, 0b11100, 0b11101]

/-- The default `T810V`: "the single entry 0xAB, and every other value absent" (R153, log 6). -/
def defaultT810V : Vector Bit 256 := (Vector.replicate 256 false).set 0xAB true

/-- The default `T810`: word 0xAB is the codeword `1010101100` (R153). The words of absent entries have no meaning and are never read
(R23); they hold 0 (DESIGN CHOICE, log 7). -/
def defaultT810 : Vector (BitVec 10) 256 := (Vector.replicate 256 0).set 0xAB 0b1010101100

/-- The ROMs of a build that takes every default. -/
def defaultRoms : Roms := { t45 := defaultT45, t810v := defaultT810V, t810 := defaultT810 }

/-- Word `v` of `T45` (R22). Every `v` the CORE looks up is a block value below 16 (R131); the answer beyond the ROM's end is never
used (log 17). -/
def t45Word (r : Roms) (v : Nat) : BitVec 5 := r.t45.getD v 0

/-- The presence bit of value `v` (R23). -/
def present (r : Roms) (v : Nat) : Bit := r.t810v.getD v false

/-- Word `v` of `T810` (R23), read only where `present r v` (R152). -/
def t810Word (r : Roms) (v : Nat) : BitVec 10 := r.t810.getD v 0

/-- The constraints on any `T45` (R135): 16 entries of 5 bits (the type), injective, and the source's three entries. -/
abbrev T45Admissible (r : Roms) : Prop :=
  (∀ u v : Fin 16, t45Word r u = t45Word r v → u = v) ∧
  t45Word r 3 = 0b10101 ∧ t45Word r 10 = 0b10110 ∧ t45Word r 13 = 0b11011

/-- The constraints on any `T810` (R159): 10-bit codewords (the type), 0xAB present with codeword `1010101100`, 0x00 absent. Nothing
else is assumed, not even injectivity. -/
abbrev T810Admissible (r : Roms) : Prop :=
  present r 0xAB = true ∧ t810Word r 0xAB = 0b1010101100 ∧ present r 0x00 = false

/-- The tables that must exist before any call (R252). -/
abbrev RomsAdmissible (r : Roms) : Prop := T45Admissible r ∧ T810Admissible r

end Sys2Proof.Machine
end

