-- ==== Sys2Proof/Machine/State.lean ====
section
/-! DEFINITION. The complete state of one CORE (spec/10_state.md R20), the host's moves still to come, the reasons a step can stop, and the state after reset (R40, R250). -/

namespace Sys2Proof.Machine

/-- The values of `STATUS` (R29); the 2-bit codes are `Status.code` (Flags.lean). -/
inductive Status where
  /-- 0: no call since reset. -/
  | idle
  /-- 1: a call is in progress. -/
  | busy
  /-- 2: the last call ended with `Ok(OUT, LBL)`. -/
  | done
  /-- 3: the last call ended with `Err(ECODE, EVAL)`. -/
  | err
deriving DecidableEq, Repr

/-- The values of `ECODE` (R29); the code 3 is "never produced" and has no constructor. The codes are `ErrKind.code` (Flags.lean). -/
inductive ErrKind where
  /-- 0: no error. -/
  | none
  /-- 1: a block value with no 8B/10B entry (R211). -/
  | unknownSymbol
  /-- 2: a command word that is no command (R213). -/
  | invalidInput
deriving DecidableEq, Repr

/-- A move of the host, the one external agent (R6, R223). There is no move that writes `IN` or `CMD` during a call, none that cancels
one, and no interrupt (R218, R257, R258; log 18). -/
inductive HostMove where
  /-- START with a command word and an input (R35). While a call runs it is not enabled and stays pending (R258). -/
  | start (c : Word8) (input : BitSeq)
  /-- Reset (R250); it may fall between any two steps, and abandons a running call (log 19). -/
  | reset
  /-- The host lets one step pass without a move. -/
  | wait
deriving DecidableEq, Repr

/-- What the host can read (R39). -/
inductive HostReg where
  | status | ecode | eval | blk | out | lbl
deriving DecidableEq, Repr

/-- What a read of the host answers: the register's own form (R20, R29). -/
inductive HostValue where
  /-- `STATUS` or `ECODE`, 2 bits. -/
  | code (v : BitVec 2)
  /-- `EVAL`, 8 bits. -/
  | byte (v : BitVec 8)
  /-- `BLK`, a natural number. -/
  | count (n : Nat)
  /-- `OUT`. -/
  | bits (s : BitSeq)
  /-- `LBL`. -/
  | labels (l : List Label)
deriving DecidableEq, Repr

/-- The state of one CORE, "the following, and nothing else" (R20), and beside it the host's moves still to come (the model's own field,
log 2). `NB`, `W`, `W_out` and `L` are functions of `CMD` and `IN` and are not stored (R21). -/
structure State where
  /-- `T45`, `T810V`, `T810`: written by nothing after startup (R20, R24). -/
  roms   : Roms
  /-- `CMD`: the command word of the current call (R25). -/
  cmd    : Word8
  /-- `IN`: the input of the call (R26). -/
  inp    : BitSeq
  /-- `BLK`: the index of the next block (R30). -/
  blk    : Nat
  /-- `OUT`: the staging buffer (R27). -/
  out    : BitSeq
  /-- `LBL`: the label buffer (R28). -/
  lbl    : List Label
  /-- `STATUS` (R29). -/
  status : Status
  /-- `ECODE` (R29). -/
  ecode  : ErrKind
  /-- `EVAL` (R29). -/
  eval   : BitVec 8
  /-- The host's moves still to come, the next one first; the model's own field (log 2). -/
  host   : List HostMove
deriving DecidableEq, Repr

/-- Why a CORE step stops. All are stuck states: R36 and R37 enable no step there. No run from reset reaches one (the invariant of
Safety.lean), so each is safe. The two errors of the spec, `UnknownSymbol` and `InvalidInput`, are no faults but next states (R221). -/
inductive Fault where
  /-- Raised by a command's meaning (`coreStep`) when `STATUS` is not BUSY: BLOCK and FINISH are enabled only in BUSY (R36, R37). Safe;
  `step` never asks for it. -/
  | notBusy
  /-- Raised by a command's meaning (`coreStep`) when `BLK > NB`: neither BLOCK nor FINISH is enabled (R36, R37). Safe. -/
  | cursorPastEnd
  /-- Raised by fetching (`coreTurn`) when `STATUS` is BUSY and `CMD` is no command: START never leaves that (R35). Safe. -/
  | busyWithoutCommand
deriving DecidableEq, Repr

/-- Why a move is refused. -/
inductive Refusal where
  /-- Raised by `exec` for a command without a meaning; no command is without one. Safe. -/
  | notModelled (mnemonic : String)
  /-- Raised by `hostStart` while BUSY: START is not enabled (R35, R258; spec/93_implementation_defined.md U10). Safe. -/
  | startWhileBusy
  /-- Raised by `hostRead` of `OUT` or `LBL` while BUSY: "a read ... is refused" (R39, R259). Safe. -/
  | readWhileBusy
  /-- Raised by `hostStartBounded`: a finite build refuses an input longer than its `LEN_MAX` (D11, U11). Safe. -/
  | inputTooLong
  /-- Raised by `Cluster.stepAt` for an index at which there is no CORE (log 11). Safe. -/
  | noSuchCore
deriving DecidableEq, Repr

/-- The state after reset of a CORE with the given ROMs (R40): every call register and buffer cleared, the host silent (log 2). -/
def State.resetWith (r : Roms) : State :=
  { roms := r, cmd := 0x00, inp := [], blk := 0, out := [], lbl := [], status := .idle, ecode := .none, eval := 0x00, host := [] }

/-- The machine right after reset, with the default tables (R40, R250; logs 5 to 7). -/
def State.reset : State := State.resetWith defaultRoms

end Sys2Proof.Machine
end

