-- ==== Sys2Proof/Machine/Flags.lean ====
section
/-! DEFINITION. The three flags of the CORE, `STATUS`, `ECODE` and `EVAL`: their encodings and the values an end of call gives them (spec/10_state.md R29). -/

namespace Sys2Proof.Machine

/-- The 2-bit code of `STATUS` (R29). -/
def Status.code : Status → BitVec 2
  | .idle => 0
  | .busy => 1
  | .done => 2
  | .err => 3

/-- The 2-bit code of `ECODE`; 3 is never produced (R29). -/
def ErrKind.code : ErrKind → BitVec 2
  | .none => 0
  | .unknownSymbol => 1
  | .invalidInput => 2

/-- `zext_8(v)`, the form in which `EVAL` holds a block value (R29, R214). -/
def evalOf (v : Nat) : BitVec 8 := BitVec.ofNat 8 v

end Sys2Proof.Machine
end

