-- ==== Sys2Proof/Syntax.lean ====
section
/-! DEFINITION. The commands of the CORE, one constructor per row of spec/opcode_table.json (spec/30_encoding.md R81), and the three fields of a command word (R80). -/

namespace Sys2Proof

/-- The nine commands (R81). No command has an operand in its word besides `MOD`, which is part of its name (R83); the data operand of
every command is the input buffer `IN`, which is state (R80). -/
inductive Instr where
  /-- CHUNK.4, the bit chunker at width 4 (R112). -/
  | chunk4
  /-- CHUNK.8, the bit chunker at width 8 (R113). -/
  | chunk8
  /-- CHUNK.64, the bit chunker at width 64 (R114). -/
  | chunk64
  /-- ENC4B5B, the 4B/5B encoder (R136). -/
  | enc4b5b
  /-- ENC8B10B, the 8B/10B encoder (R154). -/
  | enc8b10b
  /-- FRAME66.D, the 64B/66B framer with the data header (R173). -/
  | frame66D
  /-- FRAME66.C, the 64B/66B framer with the control header (R174). -/
  | frame66C
  /-- MANCH, the Manchester encoder (R193). -/
  | manch
  /-- MANCH.VFY, the Manchester encoder with the verification report (R196). -/
  | manchVfy
deriving DecidableEq, Repr

/-- Every command, in the order of R81. -/
def Instr.all : List Instr :=
  [.chunk4, .chunk8, .chunk64, .enc4b5b, .enc8b10b, .frame66D, .frame66C, .manch, .manchVfy]

/-- The fields of a command word (R80): `RSV` bits 7:5, `MOD` bits 4:3, `SCHEME` bits 2:0. -/
structure CmdFields where
  rsv    : BitVec 3
  mod    : BitVec 2
  scheme : BitVec 3
deriving DecidableEq, Repr

end Sys2Proof
end

