-- ==== Sys2Proof/Machine/Operands.lean ====
section
/-! DEFINITION. How bits become blocks and numbers: block values, `MemRead`, widths and block counts, table reads (spec/00_scope.md R13 to R15; spec/10_state.md R31; spec/20_memory.md R51 to R58). -/

namespace Sys2Proof.Machine

/-- `0^n`: `n` zero bits (R11). -/
def zeros (n : Nat) : BitSeq := List.replicate n false

/-- A bit as a number. -/
def bitVal (b : Bit) : Nat := if b then 1 else 0

/-- `val(b)`, "first bit in sequence order is most significant": the sum of `b[k] * 2^(W-1-k)` (R13). -/
def val : BitSeq → Nat
  | [] => 0
  | b :: bs => bitVal b * 2 ^ bs.length + val bs

/-- `bits_W(v)`: bit `k` is `floor(v / 2^(W-1-k)) mod 2` (R13). -/
def bitsOf (w v : Nat) : BitSeq := (List.range w).map fun k => v / 2 ^ (w - 1 - k) % 2 == 1

/-- `MemRead(a, n)`: the `n` bits of the input from bit index `a`, every index at or beyond its end reading as 0 (R15). This zero fill is
the padding rule (R55). -/
def memRead (s : BitSeq) (a n : Nat) : BitSeq := (List.range n).map fun k => s.getD (a + k) false

/-- `ceil(L / W)` (R14, R116), for `W ≥ 1`. -/
def ceilDiv (l w : Nat) : Nat := (l + w - 1) / w

/-- The number of padding bits `P = (W - (L mod W)) mod W` (R55). -/
def padLen (l w : Nat) : Nat := (w - l % w) % w

/-- `W`, the input bits a block of the command has (R31). -/
def blockWidth : Instr → Nat
  | .chunk4 => 4
  | .chunk8 => 8
  | .chunk64 => 64
  | .enc4b5b => 4
  | .enc8b10b => 8
  | .frame66D => 64
  | .frame66C => 64
  | .manch => 1
  | .manchVfy => 1

/-- `W_out`, the output bits a block of the command gives (R31). -/
def outWidth : Instr → Nat
  | .chunk4 => 4
  | .chunk8 => 8
  | .chunk64 => 64
  | .enc4b5b => 5
  | .enc8b10b => 10
  | .frame66D => 66
  | .frame66C => 66
  | .manch => 2
  | .manchVfy => 2

/-- `NB` of a command on an input (R31). -/
def numBlocks (i : Instr) (input : BitSeq) : Nat := ceilDiv input.length (blockWidth i)

/-- The block at the cursor, `MemRead(BLK * W, W)` (R36, R52). -/
def blockAt (w : Nat) (s : State) : BitSeq := memRead s.inp (s.blk * w) w

/-- `Rom45(v)`: the 5-bit codeword of value `v` (R133). -/
def rom45 (r : Roms) (v : Nat) : BitSeq := bitsOf 5 (t45Word r v).toNat

/-- `Rom810(v)`: the 10-bit codeword of a value with an entry (R152). -/
def rom810 (r : Roms) (v : Nat) : BitSeq := bitsOf 10 (t810Word r v).toNat

/-- A sequence packed into bytes where a platform packs: bit `8q + r` is bit `7 - r` of byte `q` (R61). The places of an incomplete last
byte that no bit fills are 0 (DESIGN CHOICE, log 14). No rule of the CORE depends on this. -/
def packBytes (s : BitSeq) : List (BitVec 8) :=
  (List.range (ceilDiv s.length 8)).map fun q => BitVec.ofNat 8 (val (memRead s (8 * q) 8))

end Sys2Proof.Machine
end

