-- ==== Sys2Proof/Machine/Ops.lean ====
section
/-! DEFINITION. The operations every command shares: appending to `OUT` and `LBL`, the cursor's advance, the end of a call, the abort of a call, and the CORE step (spec/10_state.md R36, R37; spec/60_exceptions.md R214, R215). -/

namespace Sys2Proof.Machine

/-- `MemWrite(|OUT|, n, v)`: append `v` to the staging buffer; the output is written in order, never at random (R15, R27). -/
def memWrite (v : BitSeq) (s : State) : State := { s with out := s.out ++ v }

/-- `LblWrite(v)`: append a label (R15, R28). -/
def lblWrite (v : Label) (s : State) : State := { s with lbl := s.lbl ++ [v] }

/-- `x[BLK] <- i + 1`: the cursor goes on by exactly one block (R36, R41). -/
def advance (s : State) : State := { s with blk := s.blk + 1 }

/-- FINISH: `x[STATUS] <- DONE` "and nothing else" (R37). -/
def finish (s : State) : State := { s with status := .done }

/-- The abort of a call by an error, the CORE's only trap: `OUT` and `LBL` are emptied, the error and its value are surfaced, `STATUS`
becomes ERR; `BLK`, `CMD` and `IN` stay, and nothing is saved anywhere else (R214, R215, R216). There is no return from it: the way on is
the next START (R219). -/
def abort (k : ErrKind) (v : BitVec 8) (s : State) : State :=
  { s with out := [], lbl := [], eval := v, ecode := k, status := .err }

/-- `raise UnknownSymbol(v)` (R211, R214). -/
def raiseUnknownSymbol (v : Nat) (s : State) : State := abort .unknownSymbol (evalOf v) s

/-- `raise InvalidInput` (R213, R215). -/
def raiseInvalidInput (s : State) : State := abort .invalidInput 0 s

/-- One CORE step of a call whose blocks have `w` bits: BLOCK, which does `block`, when `BUSY` and `BLK < NB` (R36); FINISH when `BUSY` and
`BLK = NB` (R37). Elsewhere no CORE step is enabled and the machine is stuck (log 4). -/
def coreStep (w : Nat) (block : State → State) (s : State) : Host.Outcome State Fault Refusal :=
  if s.status = .busy then
    if s.blk < ceilDiv s.inp.length w then .next (block s)
    else if s.blk = ceilDiv s.inp.length w then .next (finish s)
    else .fault .cursorPastEnd
  else .fault .notBusy

end Sys2Proof.Machine
end

