-- ==== Sys2Proof/Machine/Chunk.lean ====
section
/-! DEFINITION. The bit chunker: CHUNK.4, CHUNK.8, CHUNK.64 (spec/40_bitchunker.md R112, R113, R114). -/

namespace Sys2Proof.Machine

/-- The chunker's block step at width `w`: the zero-padded block is copied to `OUT`; no label (R36). -/
def chunkBlock (w : Nat) (s : State) : State := advance (memWrite (blockAt w s) s)

/-- CHUNK.4 (R112). -/
def execChunk4 (s : State) : Host.Outcome State Fault Refusal := coreStep 4 (chunkBlock 4) s

/-- CHUNK.8 (R113). -/
def execChunk8 (s : State) : Host.Outcome State Fault Refusal := coreStep 8 (chunkBlock 8) s

/-- CHUNK.64 (R114). -/
def execChunk64 (s : State) : Host.Outcome State Fault Refusal := coreStep 64 (chunkBlock 64) s

end Sys2Proof.Machine
end

