-- ==== Sys2Proof/Machine/Codec.lean ====
section
/-! DEFINITION. The two symbol codecs: ENC4B5B with its total table and ENC8B10B with its partial one (spec/41_symbolcodec_4b5b.md R130 to R136; spec/42_symbolcodec_8b10b.md R150 to R155). -/

namespace Sys2Proof.Machine

/-- ENC4B5B's block step: look the block's value up in `T45`, append the codeword, record the value as label (R136). -/
def enc4b5bBlock (s : State) : State :=
  let v := val (blockAt 4 s)
  advance (lblWrite v (memWrite (rom45 s.roms v) s))

/-- ENC4B5B (R136). -/
def execEnc4b5b (s : State) : Host.Outcome State Fault Refusal := coreStep 4 enc4b5bBlock s

/-- ENC8B10B's block step: a value with an entry gives its codeword and its label; a value without one raises `UnknownSymbol` and the
cursor does not advance (R154, R155). -/
def enc8b10bBlock (s : State) : State :=
  let v := val (blockAt 8 s)
  if present s.roms v then advance (lblWrite v (memWrite (rom810 s.roms v) s))
  else raiseUnknownSymbol v s

/-- ENC8B10B (R154). -/
def execEnc8b10b (s : State) : Host.Outcome State Fault Refusal := coreStep 8 enc8b10bBlock s

end Sys2Proof.Machine
end

