-- ==== Sys2Proof/Machine/Framer.lean ====
section
/-! DEFINITION. The 64B/66B framer: FRAME66.D and FRAME66.C (spec/43_blockframer_64b66b.md R170 to R174). -/

namespace Sys2Proof.Machine

/-- The data header `01`, leftmost bit first (R172). -/
def dataHeader : BitSeq := [false, true]

/-- The control header `10`, leftmost bit first (R172). -/
def controlHeader : BitSeq := [true, false]

/-- The framer's block step: the header, then the 64 payload bits unmodified; no label (R170, R172). -/
def frameBlock (header : BitSeq) (s : State) : State := advance (memWrite (header ++ blockAt 64 s) s)

/-- FRAME66.D (R173). -/
def execFrame66D (s : State) : Host.Outcome State Fault Refusal := coreStep 64 (frameBlock dataHeader) s

/-- FRAME66.C (R174). -/
def execFrame66C (s : State) : Host.Outcome State Fault Refusal := coreStep 64 (frameBlock controlHeader) s

end Sys2Proof.Machine
end

