-- ==== Sys2Proof/Machine/Manchester.lean ====
section
/-! DEFINITION. The Manchester encoder, not differential: MANCH and MANCH.VFY (spec/44_manchester.md R191 to R197; spec/90_conflicts.md C2). -/

namespace Sys2Proof.Machine

/-- `low_phase = 0` (R191). -/
def lowPhase : Bit := false

/-- `high_phase = 1` (R191). -/
def highPhase : Bit := true

/-- The level pair of a bit: first half `b xor low_phase`, second half `b xor high_phase` (R191). It depends on that bit alone (R195). -/
def levelPair (b : Bit) : BitSeq := [xor b lowPhase, xor b highPhase]

/-- The verification record `vfy(b)`: `BIT` (bit 3), `FIRST` (bit 2), `SECOND` (bit 1) and `DIR` (bit 0, 1 for `high-to-low`, equal to
`b`) (R197). -/
def vfy (b : Bit) : Label :=
  8 * bitVal b + 4 * bitVal (xor b lowPhase) + 2 * bitVal (xor b highPhase) + bitVal b

/-- The input bit at the cursor, `MemRead(BLK, 1)[0]` (R193). -/
def bitAt (s : State) : Bit := (blockAt 1 s).getD 0 false

/-- MANCH's block step (R193). -/
def manchBlock (s : State) : State := advance (memWrite (levelPair (bitAt s)) s)

/-- MANCH (R193). -/
def execManch (s : State) : Host.Outcome State Fault Refusal := coreStep 1 manchBlock s

/-- MANCH.VFY's block step: as MANCH, then the verification record (R196). -/
def manchVfyBlock (s : State) : State :=
  advance (lblWrite (vfy (bitAt s)) (memWrite (levelPair (bitAt s)) s))

/-- MANCH.VFY (R196). -/
def execManchVfy (s : State) : Host.Outcome State Fault Refusal := coreStep 1 manchVfyBlock s

end Sys2Proof.Machine
end

