-- ==== Sys2Proof/Machine/Dispatch.lean ====
section
/-! DEFINITION. The meaning of each command: one CORE step (BLOCK or FINISH) of a call of that command (spec/10_state.md R36, R37). -/

namespace Sys2Proof.Machine

/-- One CORE step of a call whose command is `i`. -/
def exec (i : Instr) (s : State) : Host.Outcome State Fault Refusal :=
  match i with
  | .chunk4 => Sys2Proof.Machine.execChunk4 s
  | .chunk8 => Sys2Proof.Machine.execChunk8 s
  | .chunk64 => Sys2Proof.Machine.execChunk64 s
  | .enc4b5b => Sys2Proof.Machine.execEnc4b5b s
  | .enc8b10b => Sys2Proof.Machine.execEnc8b10b s
  | .frame66D => Sys2Proof.Machine.execFrame66D s
  | .frame66C => Sys2Proof.Machine.execFrame66C s
  | .manch => Sys2Proof.Machine.execManch s
  | .manchVfy => Sys2Proof.Machine.execManchVfy s

end Sys2Proof.Machine
end

