-- ==== Sys2Proof/WellFormed.lean ====
section
/-! DEFINITION. Which field values make a command word a command (spec/30_encoding.md R80, R82, R83, R85). -/

namespace Sys2Proof

/-- `RSV` "must be `000`" (R80). -/
def CmdFields.rsvOk (f : CmdFields) : Bool := f.rsv == 0

/-- `SCHEME` selects one of the five transcoders 001 to 101; 000, 110 and 111 are invalid (R82). -/
def CmdFields.schemeOk (f : CmdFields) : Bool := 1 ≤ f.scheme.toNat && f.scheme.toNat ≤ 5

/-- `MOD` lies in the range its `SCHEME` gives it (R83): three widths under 001, two modes under 100, two forms under 101, and `00`
alone under every other scheme. -/
def CmdFields.modOk (f : CmdFields) : Bool :=
  match f.scheme.toNat with
  | 1 => f.mod.toNat ≤ 2
  | 4 => f.mod.toNat ≤ 1
  | 5 => f.mod.toNat ≤ 1
  | _ => f.mod.toNat == 0

/-- The fields of a command: every check holds (R82). -/
def CmdFields.wellFormed (f : CmdFields) : Bool := f.rsvOk && f.schemeOk && f.modOk

/-- The fields each command's word is made of (the table of R81). -/
def Instr.fields : Instr → CmdFields
  | .chunk4   => ⟨0b000, 0b00, 0b001⟩
  | .chunk8   => ⟨0b000, 0b01, 0b001⟩
  | .chunk64  => ⟨0b000, 0b10, 0b001⟩
  | .enc4b5b  => ⟨0b000, 0b00, 0b010⟩
  | .enc8b10b => ⟨0b000, 0b00, 0b011⟩
  | .frame66D => ⟨0b000, 0b00, 0b100⟩
  | .frame66C => ⟨0b000, 0b01, 0b100⟩
  | .manch    => ⟨0b000, 0b00, 0b101⟩
  | .manchVfy => ⟨0b000, 0b01, 0b101⟩

/-- An instruction is well formed when the fields of its word are. A constructor carries no operand, so that this holds of every
instruction (R83, R86); the checks refuse field values, not constructors. -/
def Instr.wellFormed (i : Instr) : Bool := i.fields.wellFormed

end Sys2Proof
end

