-- ==== Sys2Proof/Decode.lean ====
section
/-! DEFINITION. The decoder of command words, total on all 256 words and rejecting by name (spec/30_encoding.md R82), and the encoder (R80, R81). -/

namespace Sys2Proof

/-- Why a word is no command (R82, R85). Each makes START end with `InvalidInput`. -/
inductive DecodeReject where
  /-- `RSV` is not `000`. -/
  | reservedBits
  /-- `SCHEME` is `000`, `110` or `111`. -/
  | noScheme
  /-- `SCHEME = 001` with the unused width selector `MOD = 11`. -/
  | noWidth
  /-- `MOD` is outside the range of a scheme other than `001`. -/
  | noModifier
  /-- There is no byte to decode. -/
  | noWord
deriving DecidableEq, Repr

/-- The fields of a word: `RSV = CMD[7:5]`, `MOD = CMD[4:3]`, `SCHEME = CMD[2:0]` (R80, R82). -/
def fieldsOf (w : Word8) : CmdFields :=
  { rsv := w.extractLsb' 5 3, mod := w.extractLsb' 3 2, scheme := w.extractLsb' 0 3 }

/-- The word with given fields, `RSV` in the top bits (R80). -/
def wordOf (f : CmdFields) : Word8 := (f.rsv ++ f.mod ++ f.scheme).cast (by decide)

/-- The decoder of R82, total on all 256 words. -/
def decode (w : Word8) : Except DecodeReject Instr :=
  let f := fieldsOf w
  if f.rsv ≠ 0 then .error .reservedBits
  else
    match f.scheme.toNat, f.mod.toNat with
    | 1, 0 => .ok .chunk4
    | 1, 1 => .ok .chunk8
    | 1, 2 => .ok .chunk64
    | 1, _ => .error .noWidth
    | 2, 0 => .ok .enc4b5b
    | 2, _ => .error .noModifier
    | 3, 0 => .ok .enc8b10b
    | 3, _ => .error .noModifier
    | 4, 0 => .ok .frame66D
    | 4, 1 => .ok .frame66C
    | 4, _ => .error .noModifier
    | 5, 0 => .ok .manch
    | 5, 1 => .ok .manchVfy
    | 5, _ => .error .noModifier
    | _, _ => .error .noScheme

/-- The decoder on a stream of bytes: a command is exactly one byte (R80, R86); the rest of the stream is given back. -/
def decodeBytes : List Word8 → Except DecodeReject (Instr × List Word8)
  | [] => .error .noWord
  | w :: rest =>
    match decode w with
    | .ok i => .ok (i, rest)
    | .error e => .error e

/-- The command word of a command: its fields put together (R80, R81). -/
def encode (i : Instr) : Word8 := wordOf i.fields

/-- The command word a table row's bits are: one byte, bit 0 least significant (R80). -/
def commandWord (nbits w : Nat) : Word8 := BitVec.ofNat 8 (w % 2 ^ nbits)

/-- What the decoder reads from an instruction of `nbits` bits whose bits are `w`. A command has 8 bits (R80); anything else is refused
(log 21). -/
def decodeTableWord (nbits w : Nat) : Option Instr :=
  if nbits = 8 ∧ w < 2 ^ nbits then
    match decodeBytes [commandWord nbits w] with
    | .ok (i, _) => some i
    | .error _ => none
  else none

end Sys2Proof
end

