-- ==== Sys2Proof/Machine/HostPort.lean ====
section
/-! DEFINITION. The host's side of the CORE: START, reset and the reads (spec/10_state.md R35, R39; spec/70_reset_and_hazards.md R250). -/

namespace Sys2Proof.Machine

/-- What START does once it is enabled: every call register and buffer is overwritten; a command word makes `STATUS` BUSY, any other word
raises `InvalidInput` (R35, R215). -/
def startCall (c : Word8) (input : BitSeq) (s : State) : State :=
  let t := { s with cmd := c, inp := input, blk := 0, out := [], lbl := [], ecode := .none, eval := 0 }
  match decode c with
  | .ok _ => { t with status := .busy }
  | .error _ => raiseInvalidInput t

/-- START, enabled when `STATUS` is IDLE, DONE or ERR (R35); while BUSY it is refused (R258). -/
def hostStart (c : Word8) (input : BitSeq) (s : State) : Host.Outcome State Fault Refusal :=
  if s.status = .busy then .refused .startWhileBusy else .next (startCall c input s)

/-- START of a finite build, which "must refuse inputs longer than its `LEN_MAX`, not truncate them" (D11; spec/93_implementation_defined.md
U11). The model itself is unbounded (log 10). -/
def hostStartBounded (lenMax : Nat) (c : Word8) (input : BitSeq) (s : State) : Host.Outcome State Fault Refusal :=
  if lenMax < input.length then .refused .inputTooLong else hostStart c input s

/-- Reset: every call register and buffer takes its reset value, the ROMs keep their contents; a running call is abandoned (R40, R250).
The host's own moves still to come are not the CORE's and stay. -/
def hostReset (s : State) : State := { State.resetWith s.roms with host := s.host }

/-- A read by the host (R39): `STATUS`, `ECODE`, `EVAL` and `BLK` in any state; `OUT` and `LBL` when `STATUS` is not BUSY, refused while
BUSY (R259). A read changes nothing (R59), so it is a function of the state and not a step (log 12). -/
def hostRead (r : HostReg) (s : State) : Host.Outcome HostValue Fault Refusal :=
  match r with
  | .status => .next (.code s.status.code)
  | .ecode => .next (.code s.ecode.code)
  | .eval => .next (.byte s.eval)
  | .blk => .next (.count s.blk)
  | .out => if s.status = .busy then .refused .readWhileBusy else .next (.bits s.out)
  | .lbl => if s.status = .busy then .refused .readWhileBusy else .next (.labels s.lbl)

end Sys2Proof.Machine
end

