-- ==== Sys2Proof/Machine/Cycle.lean ====
section
/-! DEFINITION. Whose turn it is, and fetching the command: the body of one step of the machine (spec/10_state.md R35 to R38). -/

namespace Sys2Proof.Machine

/-- The command of the current call: `CMD` is latched at START and read from there (R25, R66). -/
def fetch (s : State) : Except DecodeReject Instr := decode s.cmd

/-- The CORE's turn. In BUSY the command in `CMD` does its one enabled step; otherwise no CORE step is enabled and the CORE "does nothing"
(R38, R251; log 3). -/
def coreTurn (s : State) : Host.Outcome State Fault Refusal :=
  if s.status = .busy then
    match fetch s with
    | .ok i => exec i s
    | .error _ => .fault .busyWithoutCommand
  else .next s

/-- One step of the machine: the host's next move if it is enabled now, else the CORE's turn (log 2). A pending START waits until the
running call has ended (R258); a reset is made at once (R250). -/
def cycle (s : State) : Host.Outcome State Fault Refusal :=
  match s.host with
  | [] => coreTurn s
  | .reset :: rest => .next (hostReset { s with host := rest })
  | .wait :: rest => coreTurn { s with host := rest }
  | .start c input :: rest =>
    if s.status = .busy then coreTurn s else .next (startCall c input { s with host := rest })

/-- The state in which the very next step runs the command word `c`: START of `c` with the input held in `IN`, and a host that makes no
move (log 8). -/
def placeCommand (c : Word8) (s : State) : State := startCall c s.inp { s with host := [] }

end Sys2Proof.Machine
end

