-- ==== Sys2Proof/Machine/Step.lean ====
section
/-! DEFINITION. One step of the machine, and the placing of a command word where the next step fetches it. Both only call Machine/Cycle.lean. -/

namespace Sys2Proof.Machine

/-- One step: a move of the host or of the CORE (spec/10_state.md R35 to R38). -/
def step (s : State) : Host.Outcome State Fault Refusal := cycle s

/-- `s` with the command whose bits are `w` loaded as START loads it, the input being the one `IN` holds (log 8). -/
def State.withFetchWord (s : State) (nbits w : Nat) : State := placeCommand (commandWord nbits w) s

end Sys2Proof.Machine
end

