-- ==== Sys2Proof/Machine/Cluster.lean ====
section
/-! DEFINITION. Several COREs: "the product of independent models of one" (spec/60_exceptions.md R226; spec/20_memory.md R64). -/

namespace Sys2Proof.Machine

/-- A number of COREs, each with its own state (D15). -/
abbrev Cluster := List State

/-- CORE number `k` does one step; which CORE moves when is the caller's choice, since nothing couples them (R226, log 11). -/
def Cluster.stepAt (k : Nat) (cores : Cluster) : Host.Outcome Cluster Fault Refusal :=
  match cores[k]? with
  | none => .refused .noSuchCore
  | some s =>
    match step s with
    | .next t => .next (cores.set k t)
    | .fault f => .fault f
    | .refused r => .refused r

/-- The COREs share the ROMs: all hold the same tables (R64). -/
def Cluster.SharesRoms (cores : Cluster) : Prop := ∀ s ∈ cores, ∀ t ∈ cores, s.roms = t.roms

end Sys2Proof.Machine
end

