-- ==== Sys2Proof/Machine/Call.lean ====
section
/-! DEFINITION. The call-level meaning of every command, a total function of the command, the input and the tables (spec/00_scope.md R7, R8; the family files 40 to 44). The step machine must agree with it (spec/10_state.md R38). -/

namespace Sys2Proof.Machine

/-- The result of a call (R8). -/
inductive CallResult where
  /-- `Ok(out, lbl)`. -/
  | ok (out : BitSeq) (lbl : List Label)
  /-- `Err(UnknownSymbol, v)`, with no output and no labels. -/
  | unknownSymbol (v : Nat)
  /-- `Err(InvalidInput, 0)`, with no output and no labels. -/
  | invalidInput
deriving DecidableEq, Repr

/-- `Chunk(s, W)`: the `ceil(L / W)` blocks of width `W`, the last one padded with zeros at its end (R110). Defined for every `W ≥ 1`; the
hardware selects 4, 8 and 64 (R83). -/
def chunk (s : BitSeq) (w : Nat) : List BitSeq :=
  (List.range (ceilDiv s.length w)).map fun i => memRead s (w * i) w

/-- The CHUNK commands at width `w`: the blocks, concatenated (R112 to R115). -/
def callChunk (w : Nat) (s : BitSeq) : CallResult := .ok (chunk s w).flatten []

/-- ENC4B5B (R136). -/
def callEnc4b5b (r : Roms) (s : BitSeq) : CallResult :=
  .ok ((chunk s 4).flatMap fun b => rom45 r (val b)) ((chunk s 4).map val)

/-- The loop of ENC8B10B over the blocks still to come, with the output and the labels so far; it stops at the first value without an entry
and discards both (R154, R155). -/
def enc8b10bLoop (r : Roms) : List BitSeq → BitSeq → List Label → CallResult
  | [], out, lbl => .ok out lbl
  | b :: bs, out, lbl =>
    if present r (val b) then enc8b10bLoop r bs (out ++ rom810 r (val b)) (lbl ++ [val b])
    else .unknownSymbol (val b)

/-- ENC8B10B (R154). -/
def callEnc8b10b (r : Roms) (s : BitSeq) : CallResult := enc8b10bLoop r (chunk s 8) [] []

/-- The FRAME66 commands with a given header: one mode for the whole call (R171, R173, R174). -/
def callFrame66 (header : BitSeq) (s : BitSeq) : CallResult :=
  .ok ((chunk s 64).flatMap fun b => header ++ b) []

/-- MANCH (R193). -/
def callManch (s : BitSeq) : CallResult := .ok (s.flatMap levelPair) []

/-- MANCH.VFY (R196). -/
def callManchVfy (s : BitSeq) : CallResult := .ok (s.flatMap levelPair) (s.map vfy)

/-- The call-level meaning of a command (R7). -/
def callOf (r : Roms) (s : BitSeq) : Instr → CallResult
  | .chunk4 => callChunk 4 s
  | .chunk8 => callChunk 8 s
  | .chunk64 => callChunk 64 s
  | .enc4b5b => callEnc4b5b r s
  | .enc8b10b => callEnc8b10b r s
  | .frame66D => callFrame66 dataHeader s
  | .frame66C => callFrame66 controlHeader s
  | .manch => callManch s
  | .manchVfy => callManchVfy s

/-- The result of a call of any word: an invalid word gives `Err(InvalidInput, 0)` (R8, R85). -/
def call (c : Word8) (r : Roms) (s : BitSeq) : CallResult :=
  match decode c with
  | .ok i => callOf r s i
  | .error _ => .invalidInput

end Sys2Proof.Machine
end

