-- ==== Sys2Proof/Machine/Text.lean ====
section
/-! DEFINITION. The textual forms: mnemonics, pseudo-forms, one-line calls and their results, labels as text (spec/30_encoding.md R88, R89; spec/41_symbolcodec_4b5b.md R138; spec/42_symbolcodec_8b10b.md R157; spec/44_manchester.md R197; log 15). -/

namespace Sys2Proof.Machine

/-- The mnemonic of a command (R81). -/
def mnemonic : Instr → String
  | .chunk4 => "CHUNK.4"
  | .chunk8 => "CHUNK.8"
  | .chunk64 => "CHUNK.64"
  | .enc4b5b => "ENC4B5B"
  | .enc8b10b => "ENC8B10B"
  | .frame66D => "FRAME66.D"
  | .frame66C => "FRAME66.C"
  | .manch => "MANCH"
  | .manchVfy => "MANCH.VFY"

/-- The pseudo-forms that name a command (R89). -/
def pseudoForms : List (String × Instr) :=
  [("4B5B", .enc4b5b), ("8B10B", .enc8b10b), ("64B66B data", .frame66D), ("64B66B control", .frame66C), ("Manchester", .manch)]

/-- Every name of a command: its mnemonic and its pseudo-forms (R81, R89). -/
def commandNames : List (String × Instr) := Instr.all.map (fun i => (mnemonic i, i)) ++ pseudoForms

/-- An upper-case hexadecimal digit, for values below 16 (R138). -/
def hexDigit (v : Nat) : Char :=
  ['0', '1', '2', '3', '4', '5', '6', '7', '8', '9', 'A', 'B', 'C', 'D', 'E', 'F'].getD v '?'

/-- The value of a hexadecimal digit. -/
def hexValue (c : Char) : Option Nat := (List.range 16).find? fun v => hexDigit v == c.toUpper

/-- Two upper-case hexadecimal digits without a leading mark, the text of an 8-bit label (R157). -/
def hexByte (v : Nat) : List Char := [hexDigit (v / 16), hexDigit (v % 16)]

/-- The direction label of a verification record: `DIR` 0 is `low-to-high`, 1 is `high-to-low` (R197). -/
def directionText (record : Label) : String := if record % 2 = 0 then "low-to-high" else "high-to-low"

/-- A label as a command writes it: one hexadecimal digit (R138), two (R157), or the record as a number (R88, R196). -/
def labelText : Instr → Label → List Char
  | .enc4b5b, v => [hexDigit v]
  | .enc8b10b, v => hexByte v
  | _, v => Nat.toDigits 10 v

/-- A bit string, read leftmost first; a space or `_` is a separator with no meaning (R12, R88). R88 writes the empty sequence `-` and a
separator inside a string; that a text with no bit in it, empty or of separators only, reads as the empty sequence, and that a separator
may stand first or last, is the model's choice (DESIGN CHOICE, log 15). -/
def readBits : List Char → Option BitSeq
  | [] => some []
  | c :: cs =>
    if c = '0' then (readBits cs).map (false :: ·)
    else if c = '1' then (readBits cs).map (true :: ·)
    else if c = ' ' ∨ c = '_' then readBits cs
    else none

/-- The hexadecimal digits of an input written `x"AB"`: four bits each, most significant first, up to the closing quote (R89).
That no digit at all, `x""`, reads as the empty sequence is the model's choice (DESIGN CHOICE, log 15). -/
def readHexBits : List Char → Option BitSeq
  | [] => none
  | ['"'] => some []
  | c :: cs =>
    match hexValue c, readHexBits cs with
    | some v, some bs => some (bitsOf 4 v ++ bs)
    | _, _ => none

/-- The input of a call line: `-` for the empty sequence, `x"..."` in hexadecimal, else a bit string (R88, R89). -/
def readInput : List Char → Option BitSeq
  | ['-'] => some []
  | 'x' :: '"' :: cs => readHexBits cs
  | cs => readBits cs

/-- The head of a call line taken off it: a command's name or a hexadecimal word, and the space after it (R88). R88 gives the hexadecimal
word for a call with an invalid word; that a valid word may be written so too, and is then read as its command, is the model's choice
(DESIGN CHOICE, log 15). -/
def readHead (line : List Char) : Option (Word8 × List Char) :=
  match line with
  | '0' :: 'x' :: a :: b :: ' ' :: rest =>
    match hexValue a, hexValue b with
    | some u, some v => some (BitVec.ofNat 8 (16 * u + v), rest)
    | _, _ => none
  | _ =>
    commandNames.findSome? fun (name, i) =>
      let head := name.toList ++ [' ']
      if line.take head.length == head then some (encode i, line.drop head.length) else none

/-- A call line: the command word and the input it stands for (R88, R89). -/
def readCall (line : String) : Option (Word8 × BitSeq) :=
  match readHead line.toList with
  | some (c, rest) => (readInput rest).map (c, ·)
  | none => none

/-- Bits as text, `-` for the empty sequence (R88). -/
def bitsText (s : BitSeq) : List Char := if s = [] then ['-'] else s.map fun b => if b then '1' else '0'

/-- The labels of a result, omitted when there are none (R88). -/
def labelsText (i : Instr) (l : List Label) : List Char :=
  if l = [] then [] else " lbl=[".toList ++ (List.intersperse [','] (l.map (labelText i))).flatten ++ [']']

/-- The result of a call as the right side of a call line (R88). -/
def resultText (c : Word8) : CallResult → String
  | .ok out lbl =>
    match decode c with
    | .ok i => String.ofList ("OK out=".toList ++ bitsText out ++ labelsText i lbl)
    | .error _ => "ERR InvalidInput"
  | .unknownSymbol v => String.ofList ("ERR UnknownSymbol(0x".toList ++ hexByte v ++ [')'])
  | .invalidInput => "ERR InvalidInput"

/-- A call line run at call level with given tables: what stands right of its arrow (R88). -/
def runLine (r : Roms) (line : String) : Option String :=
  (readCall line).map fun (c, s) => resultText c (call c r s)

end Sys2Proof.Machine
end

