-- ==== Sys2Proof/Safety.lean ====
section
/-! DEFINITION. What claims speak of: the output a call has staged, the invariant of the machine, runs of steps and the end of a call (spec/10_state.md R27 to R31, R38; spec/70_reset_and_hazards.md R263, R264). -/

namespace Sys2Proof.Machine

/-- The output bits one block gives (the per-block rules of R36), for a block that raises nothing. -/
def blockOut (r : Roms) (b : BitSeq) : Instr → BitSeq
  | .chunk4 => b
  | .chunk8 => b
  | .chunk64 => b
  | .enc4b5b => rom45 r (val b)
  | .enc8b10b => rom810 r (val b)
  | .frame66D => dataHeader ++ b
  | .frame66C => controlHeader ++ b
  | .manch => levelPair (b.getD 0 false)
  | .manchVfy => levelPair (b.getD 0 false)

/-- The labels one block gives (R28, R36): one for ENC4B5B, ENC8B10B and MANCH.VFY, none for the other commands. -/
def blockLabels (b : BitSeq) : Instr → List Label
  | .chunk4 => []
  | .chunk8 => []
  | .chunk64 => []
  | .enc4b5b => [val b]
  | .enc8b10b => [val b]
  | .frame66D => []
  | .frame66C => []
  | .manch => []
  | .manchVfy => [vfy (b.getD 0 false)]

/-- Block `j` of a call (R52). -/
def blockNo (i : Instr) (input : BitSeq) (j : Nat) : BitSeq := memRead input (j * blockWidth i) (blockWidth i)

/-- What `OUT` holds when the first `n` blocks are done (R53). -/
def stagedOut (i : Instr) (r : Roms) (input : BitSeq) (n : Nat) : BitSeq :=
  (List.range n).flatMap fun j => blockOut r (blockNo i input j) i

/-- What `LBL` holds when the first `n` blocks are done (R28). -/
def stagedLabels (i : Instr) (input : BitSeq) (n : Nat) : List Label :=
  (List.range n).flatMap fun j => blockLabels (blockNo i input j) i

/-- Block `j` of a call has a codeword: always, but for an ENC8B10B block whose value is absent (R211, R212). -/
def blockEncodes (i : Instr) (r : Roms) (input : BitSeq) (j : Nat) : Prop :=
  i = .enc8b10b → present r (val (blockNo i input j)) = true

/-- The first `n` blocks of the call of `i` on `IN` are done and all of them encoded: `BLK = n`, `OUT` and `LBL` hold their output and
nothing more, and no error is recorded (R27, R28, R30). -/
structure Staged (i : Instr) (s : State) : Prop where
  command : decode s.cmd = .ok i
  within : s.blk ≤ numBlocks i s.inp
  encodes : ∀ j, j < s.blk → blockEncodes i s.roms s.inp j
  out : s.out = stagedOut i s.roms s.inp s.blk
  lbl : s.lbl = stagedLabels i s.inp s.blk
  ecode : s.ecode = .none
  eval : s.eval = 0

/-- The call of `CMD` on `IN` was aborted by `UnknownSymbol` at the first block without an entry (R155, R214). -/
structure AbortedUnknown (s : State) : Prop where
  command : decode s.cmd = .ok .enc8b10b
  within : s.blk < numBlocks .enc8b10b s.inp
  before : ∀ j, j < s.blk → blockEncodes .enc8b10b s.roms s.inp j
  absent : present s.roms (val (blockNo .enc8b10b s.inp s.blk)) = false
  eval : s.eval = evalOf (val (blockNo .enc8b10b s.inp s.blk))
  out : s.out = []
  lbl : s.lbl = []
  ecode : s.ecode = .unknownSymbol

/-- The call ended at START because `CMD` is no command (R215). -/
structure AbortedInvalid (s : State) : Prop where
  command : ∀ i, decode s.cmd ≠ .ok i
  blk : s.blk = 0
  eval : s.eval = 0
  out : s.out = []
  lbl : s.lbl = []
  ecode : s.ecode = .invalidInput

/-- No call since reset (R29, R40). -/
structure Fresh (s : State) : Prop where
  cmd : s.cmd = 0x00
  inp : s.inp = []
  blk : s.blk = 0
  out : s.out = []
  lbl : s.lbl = []
  ecode : s.ecode = .none
  eval : s.eval = 0

/-- The invariant of the machine: what each value of `STATUS` says of the other registers (R27 to R30, R214, R215). -/
def Inv (s : State) : Prop :=
  match s.status with
  | .idle => Fresh s
  | .busy => ∃ i, Staged i s
  | .done => ∃ i, Staged i s ∧ s.blk = numBlocks i s.inp
  | .err => AbortedUnknown s ∨ AbortedInvalid s

/-- `k` steps of the machine, stopping at the first fault or refusal. -/
def run : Nat → State → Host.Outcome State Fault Refusal
  | 0, s => .next s
  | k + 1, s =>
    match step s with
    | .next t => run k t
    | .fault f => .fault f
    | .refused r => .refused r

/-- The end of a call: `STATUS` is DONE or ERR (R264). -/
def Ended (s : State) : Prop := s.status = .done ∨ s.status = .err

/-- The state in which a call has ended holds the given result, and every register the result speaks of (R29, R38). -/
def Shows (s : State) : CallResult → Prop
  | .ok out lbl => s.status = .done ∧ s.out = out ∧ s.lbl = lbl ∧ s.ecode = .none ∧ s.eval = 0
  | .unknownSymbol v =>
    s.status = .err ∧ s.ecode = .unknownSymbol ∧ s.eval = evalOf v ∧ s.out = [] ∧ s.lbl = []
  | .invalidInput => s.status = .err ∧ s.ecode = .invalidInput ∧ s.eval = 0 ∧ s.out = [] ∧ s.lbl = []

/-- `NB` of a call: of the command `c` stands for, 0 for a word that is no command (R31). -/
def callBlocks (c : Word8) (input : BitSeq) : Nat :=
  match decode c with
  | .ok i => numBlocks i input
  | .error _ => 0

end Sys2Proof.Machine
end

