-- ==== Sys2Proof/Certificates/Slice0/Obligations.lean ====
section
/-! DEFINITION. The statements for the provers. Each docstring names the rules of spec/ it formalises, or says that it is the model's own. -/

open Sys2Proof Sys2Proof.Machine

/-! ## Encoding -/

/-- R81: the nine command words, written out from the table, decode to their commands. -/
def Obligations.TableWordsDecodeToTheirCommands : Prop :=
  decode 0b00000001 = .ok .chunk4 ∧ decode 0b00001001 = .ok .chunk8 ∧ decode 0b00010001 = .ok .chunk64 ∧
  decode 0b00000010 = .ok .enc4b5b ∧ decode 0b00000011 = .ok .enc8b10b ∧
  decode 0b00000100 = .ok .frame66D ∧ decode 0b00001100 = .ok .frame66C ∧
  decode 0b00000101 = .ok .manch ∧ decode 0b00001101 = .ok .manchVfy

/-- R82: a word is a command exactly when `RSV = 000` and its `SCHEME` and `MOD` are one of the nine pairs; 9 words are commands and 247 are
invalid. -/
def Obligations.DecoderSelectsBySchemeAndModifier : Prop :=
  (∀ (w : Word8) (i : Instr), decode w = .ok i ↔
    w.toNat / 32 = 0 ∧ (w.toNat % 8, w.toNat / 8 % 4, i) ∈
      [(1, 0, Instr.chunk4), (1, 1, Instr.chunk8), (1, 2, Instr.chunk64), (2, 0, Instr.enc4b5b), (3, 0, Instr.enc8b10b),
       (4, 0, Instr.frame66D), (4, 1, Instr.frame66C), (5, 0, Instr.manch), (5, 1, Instr.manchVfy)]) ∧
  ((List.range 256).filter fun n => (decode (BitVec.ofNat 8 n)).isOk).length = 9 ∧
  ((List.range 256).filter fun n => !(decode (BitVec.ofNat 8 n)).isOk).length = 247

/-- R80, R81, R86: decoding the word of a command gives the command and the rest of the bytes; a word that decodes to a command is that
command's word. -/
def Obligations.DecodeAndEncodeAgree : Prop :=
  (∀ (i : Instr) (rest : List Word8), decodeBytes (encode i :: rest) = .ok (i, rest)) ∧
  (∀ (w : Word8) (i : Instr), decode w = .ok i → encode i = w)

/-! ## Bits, blocks and numbers -/

/-- R13: `val` is the sum of `b[k] * 2^(W-1-k)`, `bits_W(v)[k]` is `floor(v / 2^(W-1-k)) mod 2`, and the two are inverse (the spec marks the
last part "derived: from the definition"). -/
def Obligations.BlockValueAndItsBitsAreInverse : Prop :=
  (∀ b : BitSeq, val b = ∑ k ∈ Finset.range b.length, bitVal (b.getD k false) * 2 ^ (b.length - 1 - k)) ∧
  (∀ w v k : Nat, k < w → (bitsOf w v)[k]? = some (decide (v / 2 ^ (w - 1 - k) % 2 = 1))) ∧
  (∀ w v : Nat, (bitsOf w v).length = w) ∧
  (∀ w v : Nat, v < 2 ^ w → val (bitsOf w v) = v) ∧
  (∀ b : BitSeq, val b < 2 ^ b.length ∧ bitsOf b.length (val b) = b)

/-- R111: `Chunk(s, W)` has exactly `ceil(L / W)` blocks (the least `n` with `n * W ≥ L`), each of `W` bits; the blocks together are the
input and then the `P` padding zeros; every block holds a real bit, and every block but the last only real bits; a length that is a multiple
of `W` adds no block. (Item 4 is an inference the spec marks as its own.) -/
def Obligations.ChunkPadsOnlyTheLastBlock : Prop :=
  ∀ (s : BitSeq) (w : Nat), 1 ≤ w →
    (s.length ≤ (chunk s w).length * w ∧ ∀ n, s.length ≤ n * w → (chunk s w).length ≤ n) ∧
    (∀ b ∈ chunk s w, b.length = w) ∧
    (chunk s w).flatten = s ++ zeros ((w - s.length % w) % w) ∧
    (∀ i, i < (chunk s w).length → i * w < s.length) ∧
    (∀ i, i + 1 < (chunk s w).length → (i + 1) * w ≤ s.length) ∧
    (s.length % w = 0 → (chunk s w).length * w = s.length)

/-- R116 and R55: the block count and the padding count at zero, at a multiple of the width and otherwise; together they fill the blocks. -/
def Obligations.BlockAndPaddingCounts : Prop :=
  ∀ w : Nat, 1 ≤ w →
    (∀ q, ceilDiv (q * w) w = q ∧ padLen (q * w) w = 0) ∧
    (∀ q r, 0 < r → r < w → ceilDiv (q * w + r) w = q + 1 ∧ padLen (q * w + r) w = w - r) ∧
    (∀ l, ceilDiv l w * w = l + padLen l w ∧ padLen l w < w)

/-- R61: where a sequence is packed into bytes, bit `8q + r` of it is bit `7 - r` of byte `q`. (What fills an incomplete last byte is the
model's own choice, log 14, and is not stated.) -/
def Obligations.PackedBytesKeepBitOrder : Prop :=
  ∀ (s : BitSeq) (q r : Nat), r < 8 → 8 * q + r < s.length →
    ((packBytes s)[q]?.map fun byte => byte.getLsbD (7 - r)) = s[8 * q + r]?

/-! ## Tables -/

/-- R134, R153 with R135, R159: the default tables meet the constraints; the default `T45` is the table of R134 and the default `T810` has
the one entry 0xAB. The 13 rows marked GK and the absence of every value but 0x00 are the spec's default, not the source's (logs 5, 6). -/
def Obligations.DefaultTablesAreAdmissible : Prop :=
  RomsAdmissible defaultRoms ∧
  (List.range 16).map (fun v => (t45Word defaultRoms v).toNat) =
    [0x1E, 0x09, 0x14, 0x15, 0x0A, 0x0B, 0x0E, 0x0F, 0x12, 0x13, 0x16, 0x17, 0x1A, 0x1B, 0x1C, 0x1D] ∧
  (∀ v, v < 256 → (present defaultRoms v = true ↔ v = 0xAB)) ∧ (t810Word defaultRoms 0xAB).toNat = 0x2AC

/-- R23 and R24: a command other than ENC4B5B reads no `T45`, a command other than ENC8B10B reads no `T810V` and no `T810`, and ENC8B10B
never reads the `T810` word of an absent value: ROMs that differ only there give the same step. -/
def Obligations.UnreadRomWordsDoNotMatter : Prop :=
  ∀ (i : Instr) (s t : State) (r : Roms),
    (i = .enc4b5b → r.t45 = s.roms.t45) →
    (i = .enc8b10b → r.t810v = s.roms.t810v ∧ ∀ v, present s.roms v = true → t810Word r v = t810Word s.roms v) →
    exec i s = .next t → exec i { s with roms := r } = .next { t with roms := r }

/-! ## Reset, START and the host's reads -/

/-- R40 and R250: reset puts every call register and buffer to its reset value and leaves the ROMs as they are configured, in every state,
BUSY too. -/
def Obligations.ResetClearsEveryCallRegister : Prop :=
  (∀ s : State,
    (hostReset s).roms = s.roms ∧ (hostReset s).cmd = 0x00 ∧ (hostReset s).inp = [] ∧ (hostReset s).blk = 0 ∧
    (hostReset s).out = [] ∧ (hostReset s).lbl = [] ∧ (hostReset s).status = .idle ∧ (hostReset s).ecode = .none ∧
    (hostReset s).eval = 0x00) ∧
  State.reset.cmd = 0x00 ∧ State.reset.inp = [] ∧ State.reset.blk = 0 ∧ State.reset.out = [] ∧ State.reset.lbl = [] ∧
  State.reset.status.code = 0 ∧ State.reset.ecode.code = 0 ∧ State.reset.eval = 0x00

/-- R35 with R215: what START does to every register: with a command word the call is BUSY, with any other word it ends at once with
`InvalidInput`; while BUSY it is not enabled. -/
def Obligations.StartLatchesTheCall : Prop :=
  ∀ (s : State) (c : Word8) (input : BitSeq),
    (s.status = .busy → hostStart c input s = .refused .startWhileBusy) ∧
    (s.status ≠ .busy → (∃ i, decode c = .ok i) →
      hostStart c input s = .next { s with
        cmd := c, inp := input, blk := 0, out := [], lbl := [], ecode := .none, eval := 0, status := .busy }) ∧
    (s.status ≠ .busy → (∀ i, decode c ≠ .ok i) →
      hostStart c input s = .next { s with
        cmd := c, inp := input, blk := 0, out := [], lbl := [], ecode := .invalidInput, eval := 0, status := .err })

/-- R33: START overwrites every call register and buffer, so that the run of a call is the same after any earlier call. -/
def Obligations.CallDoesNotDependOnEarlierCalls : Prop :=
  ∀ (s t : State) (c : Word8) (input : BitSeq) (k : Nat), s.status ≠ .busy → t.status ≠ .busy →
    s.roms = t.roms → s.host = t.host →
    run k (startCall c input s) = run k (startCall c input t)

/-- R39: what the host may read, and when a read of `OUT` or `LBL` is refused. The codes are those of R29. -/
def Obligations.HostReadsAsTheStatusAllows : Prop :=
  ∀ s : State,
    hostRead .status s = .next (.code s.status.code) ∧ hostRead .ecode s = .next (.code s.ecode.code) ∧
    hostRead .eval s = .next (.byte s.eval) ∧ hostRead .blk s = .next (.count s.blk) ∧
    (s.status = .busy → hostRead .out s = .refused .readWhileBusy ∧ hostRead .lbl s = .refused .readWhileBusy) ∧
    (s.status ≠ .busy → hostRead .out s = .next (.bits s.out) ∧ hostRead .lbl s = .next (.labels s.lbl)) ∧
    (s.status.code = 0 ↔ s.status = .idle) ∧ (s.status.code = 1 ↔ s.status = .busy) ∧
    (s.status.code = 2 ↔ s.status = .done) ∧ (s.status.code = 3 ↔ s.status = .err) ∧
    (s.ecode.code = 0 ↔ s.ecode = .none) ∧ (s.ecode.code = 1 ↔ s.ecode = .unknownSymbol) ∧
    (s.ecode.code = 2 ↔ s.ecode = .invalidInput) ∧ s.ecode.code ≠ 3

/-- D11: a finite build refuses an input longer than its `LEN_MAX` and takes every other as the unbounded model does. -/
def Obligations.FiniteBuildRefusesAndNeverTruncates : Prop :=
  ∀ (n : Nat) (c : Word8) (input : BitSeq) (s : State),
    (n < input.length → hostStartBounded n c input s = .refused .inputTooLong) ∧
    (input.length ≤ n → hostStartBounded n c input s = hostStart c input s)

/-! ## One step of the machine -/

/-- R36, R37 and the model's turn rule (log 2): in BUSY, with the command `i` in `CMD`, the step is the CORE step of `i`, unless the host's
next move is a reset; a pending START stays pending, a turn let pass is used up. -/
def Obligations.StepRunsTheCommandInCmd : Prop :=
  ∀ (s : State) (i : Instr), s.status = .busy → decode s.cmd = .ok i →
    (s.host = [] → step s = exec i s) ∧
    (∀ c input rest, s.host = .start c input :: rest → step s = exec i s) ∧
    (∀ rest, s.host = .wait :: rest → step s = exec i { s with host := rest })

/-- R35, R250, R251 and the model's turn rule (logs 2, 3): a START pending when no call runs is taken; a reset is taken in any state; with
no host move and no call the CORE does nothing. -/
def Obligations.StepTakesTheHostsMove : Prop :=
  ∀ s : State,
    (∀ c input rest, s.host = .start c input :: rest → s.status ≠ .busy →
      step s = hostStart c input { s with host := rest }) ∧
    (∀ rest, s.host = .reset :: rest → step s = .next (hostReset { s with host := rest })) ∧
    (s.host = [] → s.status ≠ .busy → step s = .next s) ∧
    (∀ rest, s.host = .wait :: rest → s.status ≠ .busy → step s = .next { s with host := rest })

/-- Log 8 (the model's choice): placing a command word makes the very next step run that command on the input in `IN`, and that step answers
a next state. -/
def Obligations.PlacedCommandRunsNext : Prop :=
  ∀ (s : State) (i : Instr),
    (s.withFetchWord 8 (encode i).toNat).inp = s.inp ∧
    step (s.withFetchWord 8 (encode i).toNat) = exec i (s.withFetchWord 8 (encode i).toNat) ∧
    ∃ t, step (s.withFetchWord 8 (encode i).toNat) = .next t

/-- R36 and R37: a CORE step answers a next state exactly in BUSY with `BLK ≤ NB`; elsewhere none is enabled and the model stops by the
named fault (log 4). -/
def Obligations.CoreStepEnabledExactlyInACall : Prop :=
  ∀ (i : Instr) (s : State),
    ((∃ t, exec i s = .next t) ↔ s.status = .busy ∧ s.blk ≤ numBlocks i s.inp) ∧
    (s.status ≠ .busy → exec i s = .fault .notBusy) ∧
    (s.status = .busy → numBlocks i s.inp < s.blk → exec i s = .fault .cursorPastEnd)

/-- R37 (the empty call is marked there "derived: from rule R31 and rule R36"): FINISH sets `STATUS` to DONE and does nothing else, for
every command; for an empty input it is enabled directly after START, and the call ends with `Ok([], [])`, for ENC8B10B too. -/
def Obligations.FinishSetsDoneAndNothingElse : Prop :=
  (∀ (i : Instr) (s : State), s.status = .busy → s.blk = numBlocks i s.inp → exec i s = .next { s with status := .done }) ∧
  (∀ (i : Instr) (s : State), s.status ≠ .busy →
    exec i (startCall (encode i) [] s) = .next { s with
      cmd := encode i, inp := [], blk := 0, out := [], lbl := [], ecode := .none, eval := 0, status := .done })

/-! ## The commands: one block step, and the whole call -/

/-- R112, R113, R114: the CHUNK commands. A block step copies the block, zero beyond the input, and advances the cursor, and changes nothing
else; a call ends DONE after `NB + 1` CORE steps with the input and its padding zeros in `OUT`, no label and no error. -/
def Obligations.ChunkCommandsCopyThePaddedInput : Prop :=
  ∀ i w, (i, w) ∈ [(Instr.chunk4, 4), (Instr.chunk8, 8), (Instr.chunk64, 64)] →
    (∀ s : State, s.status = .busy → s.blk < ceilDiv s.inp.length w →
      exec i s = .next { s with
        out := s.out ++ (List.range w).map (fun k => s.inp.getD (w * s.blk + k) false), blk := s.blk + 1 }) ∧
    (∀ (s : State) (input : BitSeq), s.status ≠ .busy → s.host = [] →
      run (ceilDiv input.length w + 1) (startCall (encode i) input s) = .next { s with
        cmd := encode i, inp := input, blk := ceilDiv input.length w,
        out := input ++ zeros ((w - input.length % w) % w), lbl := [], ecode := .none, eval := 0, status := .done })

/-- R136: ENC4B5B, for every table. A block step appends the codeword of the block's value and records the value; a call ends DONE after `NB
+ 1` CORE steps with the codewords and the values of its blocks in order. -/
def Obligations.Enc4b5bEncodesEveryBlock : Prop :=
  (∀ s : State, s.status = .busy → s.blk < ceilDiv s.inp.length 4 →
    exec .enc4b5b s = .next { s with
      out := s.out ++ rom45 s.roms (val (memRead s.inp (4 * s.blk) 4)),
      lbl := s.lbl ++ [val (memRead s.inp (4 * s.blk) 4)], blk := s.blk + 1 }) ∧
  (∀ (s : State) (input : BitSeq), s.status ≠ .busy → s.host = [] →
    run (ceilDiv input.length 4 + 1) (startCall 0x02 input s) = .next { s with
      cmd := 0x02, inp := input, blk := ceilDiv input.length 4,
      out := (List.range (ceilDiv input.length 4)).flatMap fun j => rom45 s.roms (val (memRead input (4 * j) 4)),
      lbl := (List.range (ceilDiv input.length 4)).map fun j => val (memRead input (4 * j) 4),
      ecode := .none, eval := 0, status := .done })

/-- R154 and R214: ENC8B10B, for every table. A block step on a value with an entry appends its codeword and records the value; on a value
without one it aborts the call, keeping `BLK`, `CMD` and `IN`. A call all of whose values have entries ends DONE after `NB + 1` CORE steps;
a call whose first value without an entry is that of block `n` ends ERR after `n + 1`. -/
def Obligations.Enc8b10bEncodesOrAborts : Prop :=
  (∀ s : State, s.status = .busy → s.blk < ceilDiv s.inp.length 8 →
    present s.roms (val (memRead s.inp (8 * s.blk) 8)) = true →
    exec .enc8b10b s = .next { s with
      out := s.out ++ rom810 s.roms (val (memRead s.inp (8 * s.blk) 8)),
      lbl := s.lbl ++ [val (memRead s.inp (8 * s.blk) 8)], blk := s.blk + 1 }) ∧
  (∀ s : State, s.status = .busy → s.blk < ceilDiv s.inp.length 8 →
    present s.roms (val (memRead s.inp (8 * s.blk) 8)) = false →
    exec .enc8b10b s = .next { s with
      out := [], lbl := [], eval := BitVec.ofNat 8 (val (memRead s.inp (8 * s.blk) 8)), ecode := .unknownSymbol,
      status := .err }) ∧
  (∀ (s : State) (input : BitSeq), s.status ≠ .busy → s.host = [] →
    (∀ j, j < ceilDiv input.length 8 → present s.roms (val (memRead input (8 * j) 8)) = true) →
    run (ceilDiv input.length 8 + 1) (startCall 0x03 input s) = .next { s with
      cmd := 0x03, inp := input, blk := ceilDiv input.length 8,
      out := (List.range (ceilDiv input.length 8)).flatMap fun j => rom810 s.roms (val (memRead input (8 * j) 8)),
      lbl := (List.range (ceilDiv input.length 8)).map fun j => val (memRead input (8 * j) 8),
      ecode := .none, eval := 0, status := .done }) ∧
  (∀ (s : State) (input : BitSeq) (n : Nat), s.status ≠ .busy → s.host = [] → n < ceilDiv input.length 8 →
    (∀ j, j < n → present s.roms (val (memRead input (8 * j) 8)) = true) →
    present s.roms (val (memRead input (8 * n) 8)) = false →
    run (n + 1) (startCall 0x03 input s) = .next { s with
      cmd := 0x03, inp := input, blk := n, out := [], lbl := [],
      ecode := .unknownSymbol, eval := BitVec.ofNat 8 (val (memRead input (8 * n) 8)), status := .err })

/-- R173 and R174: the framer. A block step appends the header (`01` for data, `10` for control) and the 64 bits of the block; a call
ends DONE after `NB + 1` CORE steps with one frame a block, no label and no error; the outputs of the two commands on the same input
differ in exactly the first two bits of every frame, which are complemented. -/
def Obligations.FramerPutsTheHeaderBeforeEachBlock : Prop :=
  (∀ i h, (i, h) ∈ [(Instr.frame66D, [false, true]), (Instr.frame66C, [true, false])] →
      (∀ s : State, s.status = .busy → s.blk < ceilDiv s.inp.length 64 →
        exec i s = .next { s with out := s.out ++ (h ++ memRead s.inp (64 * s.blk) 64), blk := s.blk + 1 }) ∧
      (∀ (s : State) (input : BitSeq), s.status ≠ .busy → s.host = [] →
        run (ceilDiv input.length 64 + 1) (startCall (encode i) input s) = .next { s with
          cmd := encode i, inp := input, blk := ceilDiv input.length 64,
          out := (List.range (ceilDiv input.length 64)).flatMap fun j => h ++ memRead input (64 * j) 64,
          lbl := [], ecode := .none, eval := 0, status := .done })) ∧
  (∀ (r : Roms) (s dat ctl : BitSeq), callOf r s .frame66D = .ok dat [] → callOf r s .frame66C = .ok ctl [] →
      ctl.length = dat.length ∧
      ∀ n (b : Bit), dat[n]? = some b → ctl[n]? = some (if n % 66 < 2 then !b else b))

/-- R193: MANCH. A block step turns the input bit at the cursor into its level pair; a call ends DONE after `L + 1` CORE steps with the
pairs of all bits in order, no label and no error. -/
def Obligations.ManchesterEncodesEachBitAlone : Prop :=
  (∀ (s : State) (b : Bit), s.status = .busy → s.inp[s.blk]? = some b →
    exec .manch s = .next { s with out := s.out ++ [xor b false, xor b true], blk := s.blk + 1 }) ∧
  (∀ (s : State) (input : BitSeq), s.status ≠ .busy → s.host = [] →
    run (input.length + 1) (startCall 0x05 input s) = .next { s with
      cmd := 0x05, inp := input, blk := input.length, out := input.flatMap fun b => [xor b false, xor b true],
      lbl := [], ecode := .none, eval := 0, status := .done })

/-- R196 with R197: MANCH.VFY. As MANCH, and for each input bit the verification record, 2 for bit 0 and 13 for bit 1. -/
def Obligations.VerifyingManchesterAddsOneRecordABit : Prop :=
  (∀ (s : State) (b : Bit), s.status = .busy → s.inp[s.blk]? = some b →
    exec .manchVfy s = .next { s with
      out := s.out ++ [xor b false, xor b true], lbl := s.lbl ++ [if b then 13 else 2], blk := s.blk + 1 }) ∧
  (∀ (s : State) (input : BitSeq), s.status ≠ .busy → s.host = [] →
    run (input.length + 1) (startCall 0x0D input s) = .next { s with
      cmd := 0x0D, inp := input, blk := input.length, out := input.flatMap fun b => [xor b false, xor b true],
      lbl := input.map fun b => if b then 13 else 2, ecode := .none, eval := 0, status := .done })

/-! ## What every CORE step keeps -/

/-- R24, R25, R26: no CORE step of any command changes a ROM, `CMD` or `IN`. Nor does it change the host's moves still to come: that field
is the model's own (log 2, DESIGN CHOICE), and the last clause is of no rule. -/
def Obligations.CoreStepKeepsRomsCommandAndInput : Prop :=
  ∀ (i : Instr) (s t : State), exec i s = .next t →
    t.roms = s.roms ∧ t.cmd = s.cmd ∧ t.inp = s.inp ∧ t.host = s.host

/-- R24: no step of the machine, the host's moves included, changes a ROM. -/
def Obligations.NoStepWritesARom : Prop :=
  ∀ s t : State, step s = .next t → t.roms = s.roms

/-- R27 and R53: a CORE step appends to `OUT` exactly `W_out` bits (BLOCK), leaves it (FINISH) or empties it (abort); what is there is never
changed in place. -/
def Obligations.OutputIsOnlyAppendedToOrEmptied : Prop :=
  ∀ (i : Instr) (s t : State), exec i s = .next t →
    (t.status = .busy ∧ ∃ unit : BitSeq, unit.length = outWidth i ∧ t.out = s.out ++ unit) ∨
    (t.status = .done ∧ t.out = s.out ∧ t.lbl = s.lbl) ∨
    (t.status = .err ∧ t.out = [] ∧ t.lbl = [])

/-- R28: a CORE step that goes on to the next block appends one label, a number below 256, under ENC4B5B, ENC8B10B and MANCH.VFY, and no
label under any other command. -/
def Obligations.OneLabelABlockForThreeCommands : Prop :=
  ∀ (i : Instr) (s t : State), exec i s = .next t → t.status = .busy →
    (i ∈ [Instr.enc4b5b, .enc8b10b, .manchVfy] → ∃ v, v < 256 ∧ t.lbl = s.lbl ++ [v]) ∧
    (i ∉ [Instr.enc4b5b, .enc8b10b, .manchVfy] → t.lbl = s.lbl)

/-- R30 and R41: the cursor advances by exactly one on a block step that raises nothing and stays where it is on FINISH and on an abort. -/
def Obligations.CursorAdvancesByOneOrStays : Prop :=
  ∀ (i : Instr) (s t : State), exec i s = .next t →
    (t.status = .busy ∧ t.blk = s.blk + 1 ∧ s.blk < numBlocks i s.inp) ∨
    (t.status = .done ∧ t.blk = s.blk ∧ s.blk = numBlocks i s.inp) ∨
    (t.status = .err ∧ t.blk = s.blk ∧ s.blk < numBlocks i s.inp)

/-- R212: no command but ENC8B10B ever raises anything: its CORE steps leave `ECODE` and `EVAL` as they are and never end in ERR; nor does
ENC8B10B on the empty input. -/
def Obligations.OnlyEnc8b10bRaises : Prop :=
  ∀ (i : Instr) (s t : State), exec i s = .next t → i ≠ .enc8b10b ∨ s.inp = [] →
    t.status ≠ .err ∧ t.ecode = s.ecode ∧ t.eval = s.eval

/-- R25 and R257: over a step that begins and ends inside a call, `CMD`, `IN` and the ROMs are unchanged and the cursor has advanced by one.
-/
def Obligations.CommandAndInputAreFixedDuringACall : Prop :=
  ∀ s t : State, step s = .next t → s.status = .busy → t.status = .busy →
    t.cmd = s.cmd ∧ t.inp = s.inp ∧ t.roms = s.roms ∧ t.blk = s.blk + 1

/-! ## What a call computes -/

/-- R137, which the spec derives from R132, R134, R136: the lengths of ENC4B5B's output and labels, each codeword in its place; for an
injective `T45` the output determines the padded input, and it does not determine the length. -/
def Obligations.Enc4b5bOutputDeterminesThePaddedInput : Prop :=
  (∀ (r : Roms) (s out : BitSeq) (lbl : List Label), callOf r s .enc4b5b = .ok out lbl →
    out.length = 5 * ceilDiv s.length 4 ∧ lbl.length = ceilDiv s.length 4 ∧
    ∀ i v, lbl[i]? = some v → (out.drop (5 * i)).take 5 = rom45 r v) ∧
  (∀ (r : Roms) (s : BitSeq), ∃ out lbl, callOf r s .enc4b5b = .ok out lbl) ∧
  (∀ (r : Roms) (s t out : BitSeq) (l m : List Label), T45Admissible r →
    callOf r s .enc4b5b = .ok out l → callOf r t .enc4b5b = .ok out m →
    s ++ zeros (padLen s.length 4) = t ++ zeros (padLen t.length 4)) ∧
  (∀ r : Roms, ∃ s t : BitSeq, s.length ≠ t.length ∧ callOf r s .enc4b5b = callOf r t .enc4b5b)

/-- R156, which the spec derives from R154, R155, R132: ENC8B10B succeeds exactly when every block value has an entry, and then has the
stated lengths, each codeword in its place. -/
def Obligations.Enc8b10bSucceedsExactlyOnPresentValues : Prop :=
  ∀ (r : Roms) (s : BitSeq),
    ((∃ out lbl, callOf r s .enc8b10b = .ok out lbl) ↔ ∀ b ∈ chunk s 8, present r (val b) = true) ∧
    (∀ out lbl, callOf r s .enc8b10b = .ok out lbl →
      out.length = 10 * ceilDiv s.length 8 ∧ lbl.length = ceilDiv s.length 8 ∧
      ∀ i v, lbl[i]? = some v → (out.drop (10 * i)).take 10 = rom810 r v)

/-- R155: the error reports the value of the lowest-index block without an entry; blocks after it do not matter. -/
def Obligations.UnknownSymbolIsTheFirstAbsentValue : Prop :=
  (∀ (r : Roms) (s : BitSeq) (v : Nat), callOf r s .enc8b10b = .unknownSymbol v ↔
    ∃ n, n < ceilDiv s.length 8 ∧ v = val (memRead s (8 * n) 8) ∧ present r v = false ∧
      ∀ j, j < n → present r (val (memRead s (8 * j) 8)) = true) ∧
  (∀ (r : Roms) (s tail : BitSeq) (v : Nat), s.length % 8 = 0 →
    callOf r s .enc8b10b = .unknownSymbol v → callOf r (s ++ tail) .enc8b10b = .unknownSymbol v)

/-- R158 cases 1, 3 and 7, which the spec derives from R154 and R155, on every admissible table: the empty input succeeds; 1 to 8 zeros
report 0x00; repetitions of 0xAB encode. -/
def Obligations.Enc8b10bOnAdmissibleTables : Prop :=
  ∀ r : Roms, T810Admissible r →
    callOf r [] .enc8b10b = .ok [] [] ∧
    (∀ n, 1 ≤ n → n ≤ 8 → callOf r (zeros n) .enc8b10b = .unknownSymbol 0x00) ∧
    (∀ n, callOf r (List.replicate n (bitsOf 8 0xAB)).flatten .enc8b10b =
      .ok (List.replicate n (bitsOf 10 0b1010101100)).flatten (List.replicate n 0xAB))

/-- R175, R176, R177, R178: frame lengths, headers, payload, and the round trip by stripping the two header bits of each frame. -/
def Obligations.FramesKeepHeaderAndPayload : Prop :=
  ∀ i h0 h1, (i, h0, h1) ∈ [(Instr.frame66D, false, true), (Instr.frame66C, true, false)] →
    ∀ (r : Roms) (s : BitSeq), ∃ out, callOf r s i = .ok out [] ∧
      out.length = 66 * ceilDiv s.length 64 ∧
      (∀ j, j < ceilDiv s.length 64 →
        out[66 * j]? = some h0 ∧ out[66 * j + 1]? = some h1 ∧
        ∀ k, k < 64 → out[66 * j + 2 + k]? = some (s.getD (64 * j + k) false)) ∧
      ((List.range (ceilDiv s.length 64)).flatMap fun j => (out.drop (66 * j + 2)).take 64) =
        s ++ zeros ((64 - s.length % 64) % 64)

/-- R194, and R196 for the verifying form: two levels an input bit, the bit and its complement; constant inputs give the pair repeated. -/
def Obligations.ManchesterLevelsFollowTheirBit : Prop :=
  ∀ i, i ∈ [Instr.manch, .manchVfy] → ∀ (r : Roms) (s : BitSeq), ∃ out lbl, callOf r s i = .ok out lbl ∧
    out.length = 2 * s.length ∧
    (∀ n (b : Bit), s[n]? = some b → out[2 * n]? = some b ∧ out[2 * n + 1]? = some (!b)) ∧
    (s = List.replicate s.length false → out = (List.replicate s.length [false, true]).flatten) ∧
    (s = List.replicate s.length true → out = (List.replicate s.length [true, false]).flatten)

/-- R197: the fields of a verification record, its two values, the direction text of each, and that a block step of
MANCH.VFY appends the record of its bit. -/
def Obligations.VerificationRecordFields : Prop :=
  (∀ b : Bit, vfy b < 16 ∧ (vfy b).testBit 3 = b ∧ (vfy b).testBit 2 = xor b false ∧ (vfy b).testBit 1 = xor b true ∧
    (vfy b).testBit 0 = b) ∧
  vfy false = 2 ∧ vfy true = 13 ∧ directionText (vfy false) = "low-to-high" ∧ directionText (vfy true) = "high-to-low" ∧
  (∀ s t : State, exec .manchVfy s = .next t → t.status = .busy → ∃ b, s.inp[s.blk]? = some b ∧ t.lbl = s.lbl ++ [vfy b])

/-- R119, an inference the spec draws from R111: feeding the output of CHUNK.W into a command of the same width gives the same result as
feeding the raw input. -/
def Obligations.EncodingTheChunkedInputChangesNothing : Prop :=
  ∀ c i, (c, i) ∈ [(Instr.chunk4, Instr.chunk4), (.chunk8, .chunk8), (.chunk64, .chunk64), (.chunk4, .enc4b5b),
      (.chunk8, .enc8b10b), (.chunk64, .frame66D), (.chunk64, .frame66C)] →
    ∀ (r : Roms) (s out : BitSeq) (lbl : List Label), callOf r s c = .ok out lbl → callOf r out i = callOf r s i

/-- R260, an inference the spec draws from R111, and R155 for the errors: an input split at a multiple of `W` gives, as two successful
calls, the outputs and labels of one call concatenated; an error of either part is the error of the whole, the first part's before the
second's. -/
def Obligations.SplittingAtABlockBoundaryIsHarmless : Prop :=
  ∀ (i : Instr) (r : Roms) (s t : BitSeq), s.length % blockWidth i = 0 →
    (∀ o l p m, callOf r s i = .ok o l → callOf r t i = .ok p m → callOf r (s ++ t) i = .ok (o ++ p) (l ++ m)) ∧
    (∀ v, callOf r s i = .unknownSymbol v → callOf r (s ++ t) i = .unknownSymbol v) ∧
    (∀ o l v, callOf r s i = .ok o l → callOf r t i = .unknownSymbol v → callOf r (s ++ t) i = .unknownSymbol v)

/-- R213 and R85, with R8: a call of a command word never gives `InvalidInput`; a call of any other word gives nothing else. -/
def Obligations.InvalidInputExactlyForInvalidWords : Prop :=
  ∀ (c : Word8) (r : Roms) (s : BitSeq), call c r s = .invalidInput ↔ ∀ i, decode c ≠ .ok i

/-! ## The machine as a whole -/

/-- R40: the invariant holds at reset, whatever the ROMs. -/
def Obligations.InvariantHoldsAtReset : Prop :=
  (∀ r : Roms, Inv (State.resetWith r)) ∧ Inv State.reset

/-- R27 to R31, R214, R215: every step keeps the invariant: in BUSY and DONE, `OUT` and `LBL` are exactly the output of the blocks before
the cursor and every one of those blocks encoded; in ERR they are empty and `ECODE`, `EVAL` and `BLK` name the cause; in DONE the cursor is
at `NB`. -/
def Obligations.EveryStepKeepsTheInvariant : Prop :=
  ∀ s t : State, Inv s → step s = .next t → Inv t

/-- R38, which the spec derives from R35, R36, R37 (with the turn rule of log 2 and the idle step of log 3): a machine that meets the
invariant never stops: every step answers a next state. -/
def Obligations.NoReachableStateIsStuck : Prop :=
  ∀ s : State, Inv s → ∃ t, step s = .next t

/-- R38, which the spec derives from R35, R36, R37: the step machine agrees with the call-level meaning. From any state that is not BUSY,
START of any word and input followed by CORE steps reaches, after at most `NB + 1` of them, a state that shows exactly the call-level
result, with `STATUS` BUSY at every step before; and there the machine stays (this last clause rests on the idle step of log 3, DEDUCED). -/
def Obligations.StepMachineAgreesWithTheCall : Prop :=
  ∀ (s : State) (c : Word8) (input : BitSeq), s.status ≠ .busy → s.host = [] →
    ∃ u t k, hostStart c input s = .next u ∧ k ≤ callBlocks c input + 1 ∧ run k u = .next t ∧
      Shows t (call c s.roms input) ∧
      (∀ j, j < k → ∃ v, run j u = .next v ∧ v.status = .busy) ∧
      (∀ j, run (k + j) u = .next t)

/-- R263 with R8 and R155: the number of CORE steps of a call: `NB + 1` when it succeeds, `n + 1` when it aborts at block `n`, none when the
word is invalid; before that the call has not ended. -/
def Obligations.CallTakesExactlyItsSteps : Prop :=
  ∀ (s : State) (c : Word8) (input : BitSeq), s.status ≠ .busy → s.host = [] →
    (∀ out lbl, call c s.roms input = .ok out lbl →
      (∃ t, run (callBlocks c input + 1) (startCall c input s) = .next t ∧ t.status = .done ∧ t.blk = callBlocks c input) ∧
      ∀ j, j ≤ callBlocks c input → ∃ t, run j (startCall c input s) = .next t ∧ t.status = .busy ∧ t.blk = j) ∧
    (∀ v, call c s.roms input = .unknownSymbol v → ∃ n, n < callBlocks c input ∧ v = val (memRead input (8 * n) 8) ∧
      (∃ t, run (n + 1) (startCall c input s) = .next t ∧ t.status = .err ∧ t.blk = n) ∧
      ∀ j, j ≤ n → ∃ t, run j (startCall c input s) = .next t ∧ t.status = .busy ∧ t.blk = j) ∧
    (call c s.roms input = .invalidInput → (startCall c input s).status = .err ∧ (startCall c input s).blk = 0)

/-- R264, where the spec marks "Every call reaches its end" as derived: from any state inside a call that meets the invariant, with a host
that makes no move, the call ends within `NB - BLK + 1` steps. -/
def Obligations.EveryCallReachesItsEnd : Prop :=
  ∀ (s : State) (i : Instr), Inv s → s.status = .busy → decode s.cmd = .ok i → s.host = [] →
    ∃ k t, k ≤ numBlocks i s.inp - s.blk + 1 ∧ run k s = .next t ∧ Ended t

/-- R60 and R216: what the host can read as `OUT` and `LBL` is never a part of a result: in DONE it is the whole result the call-level
meaning gives for `CMD` and `IN`, otherwise it is empty. -/
def Obligations.HostNeverSeesAPartialResult : Prop :=
  ∀ (s : State) (o : BitSeq) (l : List Label), Inv s →
    hostRead .out s = .next (.bits o) → hostRead .lbl s = .next (.labels l) →
    (s.status = .done ∧ call s.cmd s.roms s.inp = .ok o l) ∨ (s.status ≠ .done ∧ o = [] ∧ l = [])

/-- R29: what the host reads in ERR is the error of the call-level meaning; `EVAL` is 0 unless `ECODE` is UNKNOWN_SYMBOL. -/
def Obligations.ErrorRegistersNameTheCause : Prop :=
  ∀ s : State, Inv s →
    (s.ecode = .unknownSymbol → s.status = .err ∧ ∃ v, v < 256 ∧ s.eval.toNat = v ∧
      call s.cmd s.roms s.inp = .unknownSymbol v) ∧
    (s.ecode = .invalidInput → s.status = .err ∧ call s.cmd s.roms s.inp = .invalidInput) ∧
    (s.ecode = .none → s.status ≠ .err) ∧ (s.ecode ≠ .unknownSymbol → s.eval = 0)

/-- R226 and R64 (log 11): a step of one CORE of several leaves every other CORE as it was, and COREs that share their ROMs go on sharing
them. -/
def Obligations.CoresDoNotAffectEachOther : Prop :=
  ∀ (k : Nat) (cores after : Cluster), Cluster.stepAt k cores = .next after →
    after.length = cores.length ∧ (∀ n, n ≠ k → after[n]? = cores[n]?) ∧
    (∃ s t, cores[k]? = some s ∧ step s = .next t ∧ after[k]? = some t) ∧
    (cores.SharesRoms → after.SharesRoms)

/-! ## Text -/

/-- R88, in the form of line that log 15 chooses (DESIGN CHOICE: exactly one space, and no arrow or result in the line that is read): a call
line made of a mnemonic, a space and a bit string reads as that command and those bits (`-` for none). -/
def Obligations.CallLineReadsBack : Prop :=
  ∀ (i : Instr) (s : BitSeq), readCall (mnemonic i ++ " " ++ String.ofList (bitsText s)) = some (encode i, s)

/-- R138 and R157: the text of a label, and its value read back. -/
def Obligations.LabelTextIsUpperCaseHexadecimal : Prop :=
  (∀ v : Nat, v < 16 → labelText .enc4b5b v = [hexDigit v] ∧ hexValue (hexDigit v) = some v) ∧
  (∀ v : Nat, v < 256 → ∃ a b : Nat, labelText .enc8b10b v = [hexDigit a, hexDigit b] ∧ a < 16 ∧ b < 16 ∧ v = 16 * a + b) ∧
  [0xD, 0x3, 0xA].map (labelText .enc4b5b) = [['D'], ['3'], ['A']] ∧ labelText .enc8b10b 0xAB = ['A', 'B']
end

