-- ==== Sys2Proof/Laws/Decode.lean ====
section
/-! SUPPORT. The small lemmas of the decoder and the encoder (spec/30_encoding.md R80 to R82). -/

namespace Sys2Proof

/-- The decoder gives every command back from its word. -/
@[simp] theorem decode_encode (i : Instr) : decode (encode i) = .ok i := by cases i <;> rfl

/-- An answer of the decoder as an Option, in which finite questions about it can be decided. -/
theorem decode_eq_ok_iff (w : Word8) (i : Instr) : decode w = .ok i ↔ (decode w).toOption = some i := by
  cases decode w <;> simp [Except.toOption]

/-- The checks of WellFormed.lean and the decoder agree on every word (R82). -/
theorem decode_isOk_eq_wellFormed : ∀ w : Word8, (decode w).isOk = (fieldsOf w).wellFormed := by decide

end Sys2Proof
end

