-- ==== Sys2Proof/Laws/Operands.lean ====
section
/-! SUPPORT. The small lemmas of blocks, block values, widths and table reads. -/

namespace Sys2Proof.Machine

@[simp] theorem zeros_length (n : Nat) : (zeros n).length = n := by simp [zeros]

@[simp] theorem memRead_length (s : BitSeq) (a n : Nat) : (memRead s a n).length = n := by simp [memRead]

/-- Bit `k` of a block is the input bit at that place, zero beyond the input (R15). -/
theorem memRead_getElem? (s : BitSeq) (a n k : Nat) (h : k < n) : (memRead s a n)[k]? = some (s.getD (a + k) false) := by
  simp [memRead, h]

@[simp] theorem bitsOf_length (w v : Nat) : (bitsOf w v).length = w := by simp [bitsOf]

@[simp] theorem rom45_length (r : Roms) (v : Nat) : (rom45 r v).length = 5 := by simp [rom45]

@[simp] theorem rom810_length (r : Roms) (v : Nat) : (rom810 r v).length = 10 := by simp [rom810]

@[simp] theorem dataHeader_length : dataHeader.length = 2 := rfl

@[simp] theorem controlHeader_length : controlHeader.length = 2 := rfl

@[simp] theorem levelPair_length (b : Bit) : (levelPair b).length = 2 := rfl

@[simp] theorem blockAt_length (w : Nat) (s : State) : (blockAt w s).length = w := by simp [blockAt]

theorem bitVal_le_one (b : Bit) : bitVal b ≤ 1 := by cases b <;> simp [bitVal]

/-- A block of `W` bits has a value below `2^W` (R13). -/
theorem val_lt (b : BitSeq) : val b < 2 ^ b.length := by
  induction b with
  | nil => simp [val]
  | cons x xs ih =>
    have hx := Nat.mul_le_mul_right (2 ^ xs.length) (bitVal_le_one x)
    simp only [val, List.length_cons, Nat.pow_succ]
    omega

/-- The value of a block read from the input is below `2^W`. -/
theorem val_memRead_lt (s : BitSeq) (a n : Nat) : val (memRead s a n) < 2 ^ n := by
  simpa using val_lt (memRead s a n)

theorem vfy_lt (b : Bit) : vfy b < 256 := by cases b <;> decide

theorem blockWidth_pos (i : Instr) : 0 < blockWidth i := by cases i <;> decide

@[simp] theorem ceilDiv_one (l : Nat) : ceilDiv l 1 = l := by simp [ceilDiv]

@[simp] theorem ceilDiv_zero (w : Nat) (h : 0 < w) : ceilDiv 0 w = 0 := by
  simp only [ceilDiv, Nat.div_eq_zero_iff]
  omega

/-- `ceil(L / W)` is the least `n` with `n * W ≥ L` (R14). -/
theorem ceilDiv_le_iff (l w n : Nat) (h : 0 < w) : ceilDiv l w ≤ n ↔ l ≤ n * w := by
  unfold ceilDiv
  rw [← Nat.lt_succ_iff, Nat.div_lt_iff_lt_mul h, Nat.succ_mul]
  omega

/-- Block `n` exists exactly when it holds a real bit (R111 item 4). -/
theorem lt_ceilDiv_iff (l w n : Nat) (h : 0 < w) : n < ceilDiv l w ↔ n * w < l := by
  have := ceilDiv_le_iff l w n h
  omega

/-- A ROM read inside the ROM is the word there. -/
theorem rom_getD {α : Type} {n : Nat} (x : Vector α n) (v : Nat) (d : α) (h : v < n) : x.getD v d = x[v] := by
  simp [Vector.getD, h]

/-- The presence bits of the default table: 0xAB and nothing else (R153, log 6). -/
theorem present_defaultRoms (v : Nat) (h : v < 256) : present defaultRoms v = decide (v = 0xAB) := by
  have hv : present defaultRoms v = ((Vector.replicate 256 false).set 0xAB true)[v] := rom_getD defaultT810V v false h
  rw [hv, Vector.getElem_set]
  by_cases hk : 0xAB = v
  · simp [← hk]
  · simp [hk, Ne.symm hk]

end Sys2Proof.Machine
end

