-- ==== Sys2Proof/Laws/State.lean ====
section
/-! SUPPORT. One lemma per field of State for every operation that updates it, so that no proof unfolds a record update. -/

namespace Sys2Proof.Machine

variable (s : State)

@[simp] theorem memWrite_roms (v : BitSeq) : (memWrite v s).roms = s.roms := rfl
@[simp] theorem memWrite_cmd (v : BitSeq) : (memWrite v s).cmd = s.cmd := rfl
@[simp] theorem memWrite_inp (v : BitSeq) : (memWrite v s).inp = s.inp := rfl
@[simp] theorem memWrite_blk (v : BitSeq) : (memWrite v s).blk = s.blk := rfl
@[simp] theorem memWrite_out (v : BitSeq) : (memWrite v s).out = s.out ++ v := rfl
@[simp] theorem memWrite_lbl (v : BitSeq) : (memWrite v s).lbl = s.lbl := rfl
@[simp] theorem memWrite_status (v : BitSeq) : (memWrite v s).status = s.status := rfl
@[simp] theorem memWrite_ecode (v : BitSeq) : (memWrite v s).ecode = s.ecode := rfl
@[simp] theorem memWrite_eval (v : BitSeq) : (memWrite v s).eval = s.eval := rfl
@[simp] theorem memWrite_host (v : BitSeq) : (memWrite v s).host = s.host := rfl

@[simp] theorem lblWrite_roms (v : Label) : (lblWrite v s).roms = s.roms := rfl
@[simp] theorem lblWrite_cmd (v : Label) : (lblWrite v s).cmd = s.cmd := rfl
@[simp] theorem lblWrite_inp (v : Label) : (lblWrite v s).inp = s.inp := rfl
@[simp] theorem lblWrite_blk (v : Label) : (lblWrite v s).blk = s.blk := rfl
@[simp] theorem lblWrite_out (v : Label) : (lblWrite v s).out = s.out := rfl
@[simp] theorem lblWrite_lbl (v : Label) : (lblWrite v s).lbl = s.lbl ++ [v] := rfl
@[simp] theorem lblWrite_status (v : Label) : (lblWrite v s).status = s.status := rfl
@[simp] theorem lblWrite_ecode (v : Label) : (lblWrite v s).ecode = s.ecode := rfl
@[simp] theorem lblWrite_eval (v : Label) : (lblWrite v s).eval = s.eval := rfl
@[simp] theorem lblWrite_host (v : Label) : (lblWrite v s).host = s.host := rfl

@[simp] theorem advance_roms : (advance s).roms = s.roms := rfl
@[simp] theorem advance_cmd : (advance s).cmd = s.cmd := rfl
@[simp] theorem advance_inp : (advance s).inp = s.inp := rfl
@[simp] theorem advance_blk : (advance s).blk = s.blk + 1 := rfl
@[simp] theorem advance_out : (advance s).out = s.out := rfl
@[simp] theorem advance_lbl : (advance s).lbl = s.lbl := rfl
@[simp] theorem advance_status : (advance s).status = s.status := rfl
@[simp] theorem advance_ecode : (advance s).ecode = s.ecode := rfl
@[simp] theorem advance_eval : (advance s).eval = s.eval := rfl
@[simp] theorem advance_host : (advance s).host = s.host := rfl

@[simp] theorem finish_roms : (finish s).roms = s.roms := rfl
@[simp] theorem finish_cmd : (finish s).cmd = s.cmd := rfl
@[simp] theorem finish_inp : (finish s).inp = s.inp := rfl
@[simp] theorem finish_blk : (finish s).blk = s.blk := rfl
@[simp] theorem finish_out : (finish s).out = s.out := rfl
@[simp] theorem finish_lbl : (finish s).lbl = s.lbl := rfl
@[simp] theorem finish_status : (finish s).status = .done := rfl
@[simp] theorem finish_ecode : (finish s).ecode = s.ecode := rfl
@[simp] theorem finish_eval : (finish s).eval = s.eval := rfl
@[simp] theorem finish_host : (finish s).host = s.host := rfl

@[simp] theorem abort_roms (k : ErrKind) (v : BitVec 8) : (abort k v s).roms = s.roms := rfl
@[simp] theorem abort_cmd (k : ErrKind) (v : BitVec 8) : (abort k v s).cmd = s.cmd := rfl
@[simp] theorem abort_inp (k : ErrKind) (v : BitVec 8) : (abort k v s).inp = s.inp := rfl
@[simp] theorem abort_blk (k : ErrKind) (v : BitVec 8) : (abort k v s).blk = s.blk := rfl
@[simp] theorem abort_out (k : ErrKind) (v : BitVec 8) : (abort k v s).out = [] := rfl
@[simp] theorem abort_lbl (k : ErrKind) (v : BitVec 8) : (abort k v s).lbl = [] := rfl
@[simp] theorem abort_status (k : ErrKind) (v : BitVec 8) : (abort k v s).status = .err := rfl
@[simp] theorem abort_ecode (k : ErrKind) (v : BitVec 8) : (abort k v s).ecode = k := rfl
@[simp] theorem abort_eval (k : ErrKind) (v : BitVec 8) : (abort k v s).eval = v := rfl
@[simp] theorem abort_host (k : ErrKind) (v : BitVec 8) : (abort k v s).host = s.host := rfl

@[simp] theorem raiseUnknownSymbol_roms (v : Nat) : (raiseUnknownSymbol v s).roms = s.roms := rfl
@[simp] theorem raiseUnknownSymbol_cmd (v : Nat) : (raiseUnknownSymbol v s).cmd = s.cmd := rfl
@[simp] theorem raiseUnknownSymbol_inp (v : Nat) : (raiseUnknownSymbol v s).inp = s.inp := rfl
@[simp] theorem raiseUnknownSymbol_blk (v : Nat) : (raiseUnknownSymbol v s).blk = s.blk := rfl
@[simp] theorem raiseUnknownSymbol_out (v : Nat) : (raiseUnknownSymbol v s).out = [] := rfl
@[simp] theorem raiseUnknownSymbol_lbl (v : Nat) : (raiseUnknownSymbol v s).lbl = [] := rfl
@[simp] theorem raiseUnknownSymbol_status (v : Nat) : (raiseUnknownSymbol v s).status = .err := rfl
@[simp] theorem raiseUnknownSymbol_ecode (v : Nat) : (raiseUnknownSymbol v s).ecode = .unknownSymbol := rfl
@[simp] theorem raiseUnknownSymbol_eval (v : Nat) : (raiseUnknownSymbol v s).eval = evalOf v := rfl
@[simp] theorem raiseUnknownSymbol_host (v : Nat) : (raiseUnknownSymbol v s).host = s.host := rfl

@[simp] theorem raiseInvalidInput_roms : (raiseInvalidInput s).roms = s.roms := rfl
@[simp] theorem raiseInvalidInput_cmd : (raiseInvalidInput s).cmd = s.cmd := rfl
@[simp] theorem raiseInvalidInput_inp : (raiseInvalidInput s).inp = s.inp := rfl
@[simp] theorem raiseInvalidInput_blk : (raiseInvalidInput s).blk = s.blk := rfl
@[simp] theorem raiseInvalidInput_out : (raiseInvalidInput s).out = [] := rfl
@[simp] theorem raiseInvalidInput_lbl : (raiseInvalidInput s).lbl = [] := rfl
@[simp] theorem raiseInvalidInput_status : (raiseInvalidInput s).status = .err := rfl
@[simp] theorem raiseInvalidInput_ecode : (raiseInvalidInput s).ecode = .invalidInput := rfl
@[simp] theorem raiseInvalidInput_eval : (raiseInvalidInput s).eval = 0 := rfl
@[simp] theorem raiseInvalidInput_host : (raiseInvalidInput s).host = s.host := rfl

@[simp] theorem hostReset_roms : (hostReset s).roms = s.roms := rfl
@[simp] theorem hostReset_cmd : (hostReset s).cmd = 0x00 := rfl
@[simp] theorem hostReset_inp : (hostReset s).inp = [] := rfl
@[simp] theorem hostReset_blk : (hostReset s).blk = 0 := rfl
@[simp] theorem hostReset_out : (hostReset s).out = [] := rfl
@[simp] theorem hostReset_lbl : (hostReset s).lbl = [] := rfl
@[simp] theorem hostReset_status : (hostReset s).status = .idle := rfl
@[simp] theorem hostReset_ecode : (hostReset s).ecode = .none := rfl
@[simp] theorem hostReset_eval : (hostReset s).eval = 0x00 := rfl
@[simp] theorem hostReset_host : (hostReset s).host = s.host := rfl

/-! START: what it writes whatever the word, and `STATUS`, `ECODE` by the word (R35). -/

variable (c : Word8) (input : BitSeq)

@[simp] theorem startCall_roms : (startCall c input s).roms = s.roms := by
  unfold startCall; cases decode c <;> rfl
@[simp] theorem startCall_cmd : (startCall c input s).cmd = c := by
  unfold startCall; cases decode c <;> rfl
@[simp] theorem startCall_inp : (startCall c input s).inp = input := by
  unfold startCall; cases decode c <;> rfl
@[simp] theorem startCall_blk : (startCall c input s).blk = 0 := by
  unfold startCall; cases decode c <;> rfl
@[simp] theorem startCall_out : (startCall c input s).out = [] := by
  unfold startCall; cases decode c <;> rfl
@[simp] theorem startCall_lbl : (startCall c input s).lbl = [] := by
  unfold startCall; cases decode c <;> rfl
@[simp] theorem startCall_eval : (startCall c input s).eval = 0 := by
  unfold startCall; cases decode c <;> rfl
@[simp] theorem startCall_host : (startCall c input s).host = s.host := by
  unfold startCall; cases decode c <;> rfl

/-- START of a command word, as one record (R35). -/
theorem startCall_of_command {c : Word8} {i : Instr} (h : decode c = .ok i) : startCall c input s = { s with
    cmd := c, inp := input, blk := 0, out := [], lbl := [], ecode := .none, eval := 0, status := .busy } := by
  simp [startCall, h]

/-- START of any other word, as one record (R35, R215). -/
theorem startCall_of_invalid {c : Word8} {e : DecodeReject} (h : decode c = .error e) : startCall c input s = { s with
    cmd := c, inp := input, blk := 0, out := [], lbl := [], ecode := .invalidInput, eval := 0, status := .err } := by
  simp [startCall, h, raiseInvalidInput, abort]

end Sys2Proof.Machine
end

