-- ==== Sys2Proof/Laws/Ops.lean ====
section
/-! SUPPORT. Everything a CORE step can do, said once: what `coreStep` answers, and that every command's meaning is `coreStep` at its width with its block step. -/

namespace Sys2Proof.Machine

/-- A CORE step that answers a next state is a BLOCK step before `NB` or FINISH at `NB` (R36, R37). -/
theorem coreStep_next {w : Nat} {block : State → State} {s t : State} (h : coreStep w block s = .next t) :
    s.status = .busy ∧
    ((s.blk < ceilDiv s.inp.length w ∧ t = block s) ∨ (s.blk = ceilDiv s.inp.length w ∧ t = finish s)) := by
  unfold coreStep at h
  split at h
  · refine ⟨‹_›, ?_⟩
    split at h
    · exact .inl ⟨‹_›, (Host.Outcome.next.inj h).symm⟩
    · split at h
      · exact .inr ⟨‹_›, (Host.Outcome.next.inj h).symm⟩
      · cases h
  · cases h

theorem coreStep_block {w : Nat} (block : State → State) {s : State} (hb : s.status = .busy)
    (h : s.blk < ceilDiv s.inp.length w) : coreStep w block s = .next (block s) := by
  simp [coreStep, hb, h]

theorem coreStep_finish {w : Nat} (block : State → State) {s : State} (hb : s.status = .busy)
    (h : s.blk = ceilDiv s.inp.length w) : coreStep w block s = .next (finish s) := by
  simp [coreStep, hb, h]

theorem coreStep_notBusy (w : Nat) (block : State → State) {s : State} (hb : s.status ≠ .busy) :
    coreStep w block s = .fault .notBusy := by
  simp [coreStep, hb]

theorem coreStep_pastEnd {w : Nat} (block : State → State) {s : State} (hb : s.status = .busy)
    (h : ceilDiv s.inp.length w < s.blk) : coreStep w block s = .fault .cursorPastEnd := by
  simp [coreStep, hb, Nat.not_lt.mpr h.le, Nat.ne_of_gt h]

/-- The block step of each command. -/
def blockStep : Instr → State → State
  | .chunk4 => chunkBlock 4
  | .chunk8 => chunkBlock 8
  | .chunk64 => chunkBlock 64
  | .enc4b5b => enc4b5bBlock
  | .enc8b10b => enc8b10bBlock
  | .frame66D => frameBlock dataHeader
  | .frame66C => frameBlock controlHeader
  | .manch => manchBlock
  | .manchVfy => manchVfyBlock

/-- Every meaning is the shared CORE step at the width R31 gives the command, with the command's own block step. -/
theorem exec_eq_coreStep (i : Instr) (s : State) : exec i s = coreStep (blockWidth i) (blockStep i) s := by
  cases i <;> rfl

theorem blockAt_eq_blockNo (i : Instr) (s : State) : blockAt (blockWidth i) s = blockNo i s.inp s.blk := rfl

/-- A block step on a block that raises nothing: the block's output and labels are appended and the cursor advances (R36). -/
theorem blockStep_encodes (i : Instr) (s : State) (h : blockEncodes i s.roms s.inp s.blk) :
    blockStep i s = { s with
      out := s.out ++ blockOut s.roms (blockNo i s.inp s.blk) i,
      lbl := s.lbl ++ blockLabels (blockNo i s.inp s.blk) i, blk := s.blk + 1 } := by
  cases i <;>
    simp [blockStep, chunkBlock, enc4b5bBlock, enc8b10bBlock, frameBlock, manchBlock, manchVfyBlock, advance, memWrite, lblWrite,
      blockOut, blockLabels, blockAt, blockNo, blockWidth, bitAt]
  have hp := h rfl
  simp only [blockNo, blockWidth] at hp
  simp [hp]

/-- A block step on an ENC8B10B block without an entry: the abort of R214. -/
theorem blockStep_absent (s : State) (h : present s.roms (val (blockNo .enc8b10b s.inp s.blk)) = false) :
    blockStep .enc8b10b s = raiseUnknownSymbol (val (blockNo .enc8b10b s.inp s.blk)) s := by
  simp only [blockNo, blockWidth] at h
  simp [blockStep, enc8b10bBlock, blockAt, blockNo, blockWidth, h]

/-- Everything a command's CORE step can do (R36, R37, R214): a block encoded, FINISH, or the abort of ENC8B10B. -/
theorem exec_next {i : Instr} {s t : State} (h : exec i s = .next t) : s.status = .busy ∧
    ((s.blk < numBlocks i s.inp ∧ blockEncodes i s.roms s.inp s.blk ∧ t = { s with
        out := s.out ++ blockOut s.roms (blockNo i s.inp s.blk) i,
        lbl := s.lbl ++ blockLabels (blockNo i s.inp s.blk) i, blk := s.blk + 1 }) ∨
     (s.blk = numBlocks i s.inp ∧ t = finish s) ∨
     (i = .enc8b10b ∧ s.blk < numBlocks i s.inp ∧
        present s.roms (val (blockNo .enc8b10b s.inp s.blk)) = false ∧
        t = raiseUnknownSymbol (val (blockNo .enc8b10b s.inp s.blk)) s)) := by
  rw [exec_eq_coreStep] at h
  obtain ⟨hb, ⟨hlt, rfl⟩ | ⟨heq, rfl⟩⟩ := coreStep_next h
  · refine ⟨hb, ?_⟩
    by_cases he : blockEncodes i s.roms s.inp s.blk
    · exact .inl ⟨hlt, he, blockStep_encodes i s he⟩
    · obtain ⟨rfl, hp⟩ : i = .enc8b10b ∧ present s.roms (val (blockNo i s.inp s.blk)) = false := by
        simpa [blockEncodes] using he
      exact .inr (.inr ⟨rfl, hlt, hp, blockStep_absent s hp⟩)
  · exact ⟨hb, .inr (.inl ⟨heq, rfl⟩)⟩

theorem blockOut_length (i : Instr) (r : Roms) (b : BitSeq) (h : b.length = blockWidth i) :
    (blockOut r b i).length = outWidth i := by
  cases i <;> simp_all [blockOut, blockWidth, outWidth]

end Sys2Proof.Machine
end

