-- ==== Sys2Proof/Laws/PerInstr.lean ====
section
/-! SUPPORT. Facts about each command as syntax: the word it encodes to has its own fields, and they pass every check (spec/30_encoding.md R80 to R83). -/

namespace Sys2Proof.Laws.EncodedFields

/-- The fields of the command's word are the command's own and are well formed. -/
def Statement (i : Instr) : Prop := fieldsOf (encode i) = i.fields ∧ (fieldsOf (encode i)).wellFormed = true

theorem chunk4 : Statement .chunk4 := ⟨by decide, by decide⟩
theorem chunk8 : Statement .chunk8 := ⟨by decide, by decide⟩
theorem chunk64 : Statement .chunk64 := ⟨by decide, by decide⟩
theorem enc4b5b : Statement .enc4b5b := ⟨by decide, by decide⟩
theorem enc8b10b : Statement .enc8b10b := ⟨by decide, by decide⟩
theorem frame66D : Statement .frame66D := ⟨by decide, by decide⟩
theorem frame66C : Statement .frame66C := ⟨by decide, by decide⟩
theorem manch : Statement .manch := ⟨by decide, by decide⟩
theorem manchVfy : Statement .manchVfy := ⟨by decide, by decide⟩

end Sys2Proof.Laws.EncodedFields
end

