-- ==== Sys2Proof/Laws/Step.lean ====
section
/-! SUPPORT. Everything a step of the machine can do, said once; runs of steps; START's effect through `step`. -/

namespace Sys2Proof.Machine

theorem coreTurn_notBusy {s : State} (h : s.status ≠ .busy) : coreTurn s = .next s := by simp [coreTurn, h]

theorem coreTurn_busy {s : State} {i : Instr} (h : s.status = .busy) (hd : decode s.cmd = .ok i) : coreTurn s = exec i s := by
  simp [coreTurn, fetch, h, hd]

theorem step_silent {s : State} (h : s.host = []) : step s = coreTurn s := by simp [step, cycle, h]

/-- Everything the CORE's turn can do. -/
theorem coreTurn_next {s t : State} (h : coreTurn s = .next t) :
    (s.status ≠ .busy ∧ t = s) ∨ (s.status = .busy ∧ ∃ i, decode s.cmd = .ok i ∧ exec i s = .next t) := by
  unfold coreTurn fetch at h
  split at h
  · split at h
    · exact .inr ⟨‹_›, _, ‹_›, h⟩
    · cases h
  · exact .inl ⟨‹_›, (Host.Outcome.next.inj h).symm⟩

/-- Everything a step can do: the CORE's turn (the host silent, waiting, or with a START that is not enabled), a reset, or a START. -/
theorem step_next {s t : State} (h : step s = .next t) :
    (∃ moves, coreTurn { s with host := moves } = .next t) ∨
    (∃ rest, s.host = .reset :: rest ∧ t = hostReset { s with host := rest }) ∨
    (∃ c input rest, s.host = .start c input :: rest ∧ s.status ≠ .busy ∧ t = startCall c input { s with host := rest }) := by
  unfold step cycle at h
  split at h
  · exact .inl ⟨s.host, h⟩
  · exact .inr (.inl ⟨_, ‹_›, (Host.Outcome.next.inj h).symm⟩)
  · exact .inl ⟨_, h⟩
  · split at h
    · exact .inl ⟨s.host, h⟩
    · exact .inr (.inr ⟨_, _, _, ‹_›, ‹_›, (Host.Outcome.next.inj h).symm⟩)

@[simp] theorem run_zero (s : State) : run 0 s = .next s := rfl

theorem run_succ_of_next {s t : State} (k : Nat) (h : step s = .next t) : run (k + 1) s = run k t := by simp [run, h]

/-- A run of `j + k` steps is `j` steps and then `k` more. -/
theorem run_add {j : Nat} {s t : State} (k : Nat) (h : run j s = .next t) : run (j + k) s = run k t := by
  induction j generalizing s with
  | zero => rw [Nat.zero_add, Host.Outcome.next.inj h]
  | succ j ih =>
    rw [Nat.succ_add]
    simp only [run] at h ⊢
    split at h
    · exact ih h
    · cases h
    · cases h

/-- With a silent host and no call running, the machine stays as it is (R251, R264). -/
theorem run_idle {s : State} (k : Nat) (hh : s.host = []) (hb : s.status ≠ .busy) : run k s = .next s := by
  induction k with
  | zero => rfl
  | succ k ih => rw [run_succ_of_next k (by rw [step_silent hh, coreTurn_notBusy hb]), ih]

end Sys2Proof.Machine
end

