-- ==== Sys2Proof/Laws/Run.lean ====
section
/-! SUPPORT. What a run of CORE steps from START does: blocks in order, then FINISH, or the abort of ENC8B10B; and reading a unit out of an output made of equal units. -/

namespace Sys2Proof.Machine

theorem exec_block {i : Instr} {s : State} (hb : s.status = .busy) (h : s.blk < numBlocks i s.inp) :
    exec i s = .next (blockStep i s) := by
  rw [exec_eq_coreStep]; exact coreStep_block _ hb h

theorem exec_finish {i : Instr} {s : State} (hb : s.status = .busy) (h : s.blk = numBlocks i s.inp) :
    exec i s = .next (finish s) := by
  rw [exec_eq_coreStep]; exact coreStep_finish _ hb h

/-- A BLOCK step on a block that raises nothing, as one record. -/
theorem exec_encodes {i : Instr} {s : State} (hb : s.status = .busy) (h : s.blk < numBlocks i s.inp)
    (he : blockEncodes i s.roms s.inp s.blk) : exec i s = .next { s with
      out := s.out ++ blockOut s.roms (blockNo i s.inp s.blk) i,
      lbl := s.lbl ++ blockLabels (blockNo i s.inp s.blk) i, blk := s.blk + 1 } := by
  rw [exec_block hb h, blockStep_encodes _ _ he]

variable (s : State) (input : BitSeq) (hh : s.host = [])
include hh

/-- After START and `n` steps, where the first `n` blocks encode, exactly they are staged (R30, R53). -/
theorem run_blocks (i : Instr) (n : Nat) (hn : n ≤ numBlocks i input) (he : ∀ j, j < n → blockEncodes i s.roms input j) :
    run n (startCall (encode i) input s) = .next { s with
      cmd := encode i, inp := input, blk := n, out := stagedOut i s.roms input n, lbl := stagedLabels i input n,
      ecode := .none, eval := 0, status := .busy } := by
  induction n with
  | zero =>
    rw [startCall_of_command _ _ (decode_encode i)]
    simp [stagedOut, stagedLabels]
  | succ n ih =>
    rw [run_add 1 (ih (by omega) fun j hj => he j (by omega)), run_succ_of_next 0 (t := { s with
      cmd := encode i, inp := input, blk := n + 1, out := stagedOut i s.roms input (n + 1),
      lbl := stagedLabels i input (n + 1), ecode := .none, eval := 0, status := .busy })]
    · rfl
    · rw [step_silent (by exact hh), coreTurn_busy (i := i) rfl (by exact decode_encode i),
        exec_encodes rfl (by exact hn) (by exact he n (by omega))]
      simp [stagedOut, stagedLabels, List.range_succ, List.flatMap_append]

/-- A call all of whose blocks encode, with its FINISH (R37, R263). -/
theorem run_done (i : Instr) (he : ∀ j, j < numBlocks i input → blockEncodes i s.roms input j) :
    run (numBlocks i input + 1) (startCall (encode i) input s) = .next { s with
      cmd := encode i, inp := input, blk := numBlocks i input, out := stagedOut i s.roms input (numBlocks i input),
      lbl := stagedLabels i input (numBlocks i input), ecode := .none, eval := 0, status := .done } := by
  rw [run_add 1 (run_blocks s input hh i _ le_rfl he), run_succ_of_next 0]
  · rfl
  · rw [step_silent (by exact hh), coreTurn_busy (i := i) rfl (by exact decode_encode i), exec_finish rfl rfl]
    rfl

/-- A call of ENC8B10B whose first block without an entry is block `n` (R155, R214, R263). -/
theorem run_abort (n : Nat) (hn : n < numBlocks .enc8b10b input)
    (he : ∀ j, j < n → blockEncodes .enc8b10b s.roms input j)
    (ha : present s.roms (val (blockNo .enc8b10b input n)) = false) :
    run (n + 1) (startCall (encode .enc8b10b) input s) = .next { s with
      cmd := encode .enc8b10b, inp := input, blk := n, out := [], lbl := [],
      ecode := .unknownSymbol, eval := evalOf (val (blockNo .enc8b10b input n)), status := .err } := by
  rw [run_add 1 (run_blocks s input hh .enc8b10b n hn.le he), run_succ_of_next 0]
  · rfl
  · rw [step_silent (by exact hh), coreTurn_busy (i := .enc8b10b) rfl (by exact decode_encode _),
      exec_block rfl (by exact hn), blockStep_absent _ (by exact ha)]
    rfl

omit hh

/-- The length of an output made of `n` units of `w` elements. -/
theorem units_length {α : Type} (f : Nat → List α) (w n : Nat) (hf : ∀ i, i < n → (f i).length = w) :
    ((List.range n).flatMap f).length = w * n := by
  induction n with
  | zero => simp
  | succ n ih =>
    rw [List.range_succ, List.flatMap_append, List.length_append, ih fun i hi => hf i (by omega)]
    simp [hf n (by omega), Nat.mul_succ]

/-- Element `k` of unit `i` stands at index `w * i + k` (R53). -/
theorem units_getElem? {α : Type} (f : Nat → List α) (w n : Nat) (hf : ∀ i, i < n → (f i).length = w) (i k : Nat)
    (hi : i < n) (hk : k < w) : ((List.range n).flatMap f)[w * i + k]? = (f i)[k]? := by
  induction n with
  | zero => omega
  | succ n ih =>
    have hl := units_length f w n fun j hj => hf j (by omega)
    rw [List.range_succ, List.flatMap_append]
    rcases Nat.lt_or_ge i n with h | h
    · have hm : w * (i + 1) ≤ w * n := Nat.mul_le_mul_left _ h
      rw [Nat.mul_succ] at hm
      rw [List.getElem?_append_left (by omega)]
      exact ih (fun j hj => hf j (by omega)) h
    · obtain rfl : i = n := by omega
      rw [List.getElem?_append_right (by omega), hl]
      simp

end Sys2Proof.Machine
end

