-- ==== Sys2Proof/Tests/Slice0.lean ====
section
/-! SUPPORT. Tests whose expected results are the spec's own: the encodings of R81, the vectors of spec/95_test_vectors.md, the tables; and a witness for the hypotheses of every statement. -/

-- One theorem at a time: a thread for each of this file's theorems together would pass the check's memory limit.
set_option Elab.async false

namespace Sys2Proof.Machine

/-! ## Decoding: the words of R81 written bit by bit, and invalid words of V15 -/

theorem test_decode_chunk4 : decode 0b00000001 = .ok .chunk4 := rfl
theorem test_decode_chunk8 : decode 0b00001001 = .ok .chunk8 := rfl
theorem test_decode_chunk64 : decode 0b00010001 = .ok .chunk64 := rfl
theorem test_decode_enc4b5b : decode 0b00000010 = .ok .enc4b5b := rfl
theorem test_decode_enc8b10b : decode 0b00000011 = .ok .enc8b10b := rfl
theorem test_decode_frame66D : decode 0b00000100 = .ok .frame66D := rfl
theorem test_decode_frame66C : decode 0b00001100 = .ok .frame66C := rfl
theorem test_decode_manch : decode 0b00000101 = .ok .manch := rfl
theorem test_decode_manchVfy : decode 0b00001101 = .ok .manchVfy := rfl

/-- V15: the words its table lists are no commands. -/
theorem test_decode_rejects_invalid_words :
    [0x00, 0x06, 0x07, 0x19, 0x0A, 0x12, 0x1A, 0x0B, 0x13, 0x1B, 0x14, 0x1C, 0x15, 0x1D, 0x21, 0x22, 0x80, 0xFF].all
      (fun w : Word8 => !(decode w).isOk) = true := by decide

theorem test_decode_names_the_reason :
    decode 0x21 = .error .reservedBits ∧ decode 0x06 = .error .noScheme ∧ decode 0x19 = .error .noWidth ∧
    decode 0x0A = .error .noModifier ∧ decodeBytes [] = .error .noWord := ⟨rfl, rfl, rfl, rfl, rfl⟩

theorem test_table_word_of_other_length_refused : decodeTableWord 16 0x0001 = none ∧ decodeTableWord 8 0x101 = none := by decide

/-! ## WellFormed: for each check an ill-formed term that it refuses -/

theorem test_wellFormed_rsv : CmdFields.rsvOk ⟨0b001, 0b00, 0b001⟩ = false := by decide
theorem test_wellFormed_scheme_low : CmdFields.schemeOk ⟨0b000, 0b00, 0b000⟩ = false := by decide
theorem test_wellFormed_scheme_high : CmdFields.schemeOk ⟨0b000, 0b00, 0b110⟩ = false := by decide
theorem test_wellFormed_width : CmdFields.modOk ⟨0b000, 0b11, 0b001⟩ = false := by decide
theorem test_wellFormed_codec_modifier : CmdFields.modOk ⟨0b000, 0b01, 0b010⟩ = false := by decide
theorem test_wellFormed_framing_mode : CmdFields.modOk ⟨0b000, 0b10, 0b100⟩ = false := by decide
theorem test_wellFormed_every_command : Instr.all.all Instr.wellFormed = true := by decide

/-- A `T45` with one codeword twice is not admissible (R135 b). -/
theorem test_tables_not_injective_refused : ¬ T45Admissible { defaultRoms with t45 := defaultT45.set 0 0b01001 } := by
  decide +kernel

/-- A `T810` with an entry for 0x00 is not admissible (R159 c). -/
theorem test_tables_zero_present_refused : ¬ T810Admissible { defaultRoms with t810v := defaultT810V.set 0 true } := by
  decide +kernel

/-! ## One CORE step of each command -/

/-- Bits written as in the spec, leftmost first. -/
def bits (text : String) : BitSeq := (readBits text.toList).getD []

/-- A call in progress at a cursor, with default tables and nothing staged. -/
def inCall (i : Instr) (input : BitSeq) (cursor : Nat) : State :=
  { State.reset with cmd := encode i, inp := input, blk := cursor, status := .busy }

/-- The registers a step of the CORE writes. -/
structure Written where
  status : Status
  blk    : Nat
  out    : BitSeq
  lbl    : List Label
  ecode  : ErrKind
  eval   : BitVec 8
deriving DecidableEq, Repr

/-- What a step wrote, if it answered a next state. -/
def written : Host.Outcome State Fault Refusal → Option Written
  | .next s => some ⟨s.status, s.blk, s.out, s.lbl, s.ecode, s.eval⟩
  | .fault _ => none
  | .refused _ => none

theorem next_of_written {o : Host.Outcome State Fault Refusal} (h : (written o).map Written.status = some .busy) :
    ∃ t, o = .next t ∧ t.status = .busy := by
  cases o with
  | next s => exact ⟨s, rfl, by simpa [written] using h⟩
  | fault f => simp [written] at h
  | refused r => simp [written] at h

/-- V10: the second block of `11111` is `1000`. -/
theorem test_chunk4_pads_at_the_end :
    written (exec .chunk4 (inCall .chunk4 (bits "11111") 1)) = some ⟨.busy, 2, bits "1000", [], .none, 0⟩ := by decide +kernel

/-- R113: the second block of `110100111` is `10000000`. -/
theorem test_chunk8_pads_at_the_end :
    written (exec .chunk8 (inCall .chunk8 (bits "110100111") 1)) = some ⟨.busy, 2, bits "10000000", [], .none, 0⟩ := by
  decide +kernel

/-- R114: `1` gives 1 and 63 zeros. -/
theorem test_chunk64_of_one_bit :
    written (exec .chunk64 (inCall .chunk64 (bits "1") 0)) = some ⟨.busy, 1, true :: zeros 63, [], .none, 0⟩ := by decide +kernel

/-- P1, block 2: `101` is padded to `1010`, value 10, codeword `10110`. -/
theorem test_enc4b5b_padded_block :
    written (exec .enc4b5b (inCall .enc4b5b (bits "11010011101") 2)) = some ⟨.busy, 3, bits "10110", [10], .none, 0⟩ := by
  decide +kernel

/-- V3: 0xAB gives `1010101100`. -/
theorem test_enc8b10b_known_byte :
    written (exec .enc8b10b (inCall .enc8b10b (bits "10101011") 0)) = some ⟨.busy, 1, bits "1010101100", [0xAB], .none, 0⟩ := by
  decide +kernel

/-- P2, call 2, block 1: 0x00 aborts the call, `BLK` stays 1 and what was staged is gone. -/
theorem test_enc8b10b_absent_byte :
    written (exec .enc8b10b { inCall .enc8b10b (bits "10101011 00000000 10101011") 1 with
      out := bits "1010101100", lbl := [0xAB] }) = some ⟨.err, 1, [], [], .unknownSymbol, 0x00⟩ := by decide +kernel

/-- V13: the data frame of P64, written out. -/
theorem test_frame66D_of_P64 :
    written (exec .frame66D (inCall .frame66D
      (bits "10101011 11001101 11101111 00000001 00100011 01000101 01100111 10001001") 0)) =
    some ⟨.busy, 1, bits "011010101111001101111011110000000100100011010001010110011110001001", [], .none, 0⟩ := by decide +kernel

/-- P3, call 2, second frame: `10`, the six real bits, 58 zeros. -/
theorem test_frame66C_padded_block :
    written (exec .frame66C (inCall .frame66C (bits "111111" ++ zeros 58 ++ bits "110011") 1)) =
    some ⟨.busy, 2, bits "101100110000000000000000000000000000000000000000000000000000000000", [], .none, 0⟩ := by decide +kernel

/-- V7: bit 1 is high-to-low. -/
theorem test_manch_one : written (exec .manch (inCall .manch (bits "1") 0)) = some ⟨.busy, 1, bits "10", [], .none, 0⟩ := by
  decide +kernel

/-- C2: the second bit of `00` gives the same pair as the first; the code is not differential. -/
theorem test_manch_is_not_differential :
    written (exec .manch { inCall .manch (bits "00") 1 with out := bits "01" }) = some ⟨.busy, 2, bits "0101", [], .none, 0⟩ := by
  decide +kernel

/-- V14: bit 1 gives levels 1, 0 and the record 13. -/
theorem test_manchVfy_one :
    written (exec .manchVfy (inCall .manchVfy (bits "1") 0)) = some ⟨.busy, 1, bits "10", [13], .none, 0⟩ := by decide +kernel

/-- V14: bit 0 gives levels 0, 1 and the record 2. -/
theorem test_manchVfy_zero :
    written (exec .manchVfy (inCall .manchVfy (bits "0") 0)) = some ⟨.busy, 1, bits "01", [2], .none, 0⟩ := by decide +kernel

/-- P5: on the empty input every command, ENC8B10B too, goes to DONE in one CORE step. -/
theorem test_empty_input_finishes (i : Instr) :
    written (step (State.reset.withFetchWord 8 (encode i).toNat)) = some ⟨.done, 0, [], [], .none, 0⟩ := by cases i <;> rfl

/-! ## The host -/

/-- P4, call 1: the word 0x19 ends the call at START, and `CMD` holds it. -/
theorem test_start_of_invalid_word :
    written (hostStart 0x19 (bits "110100111") State.reset) = some ⟨.err, 0, [], [], .invalidInput, 0⟩ ∧
    (startCall 0x19 (bits "110100111") State.reset).cmd = 0x19 := by decide +kernel

/-- P2: START of call 3 wipes the error of call 2. -/
theorem test_start_clears_the_error :
    written (hostStart 0x03 (bits "10101011") { State.reset with status := .err, ecode := .unknownSymbol, eval := 7, blk := 1 }) =
    some ⟨.busy, 0, [], [], .none, 0⟩ := by decide +kernel

/-- R250: a reset while BUSY abandons the call. -/
theorem test_reset_abandons_a_call :
    written (step { inCall .manch (bits "01") 1 with out := bits "01", host := [.reset] }) = some ⟨.idle, 0, [], [], .none, 0⟩ := by
  decide +kernel

/-- R258: a START that comes while BUSY waits; the running call goes on. -/
theorem test_pending_start_waits :
    written (step { inCall .manch (bits "01") 1 with host := [.start 0x01 []] }) = some ⟨.busy, 2, bits "10", [], .none, 0⟩ := by
  decide +kernel

/-! ## Whole calls, as lines of spec/95_test_vectors.md -/

theorem test_line_V1 : runLine defaultRoms "ENC4B5B 11010011101" = some "OK out=110111010110110 lbl=[D,3,A]" := by decide +kernel
theorem test_line_V4 : runLine defaultRoms "ENC8B10B 00000000" = some "ERR UnknownSymbol(0x00)" := by decide +kernel
theorem test_line_V12_first_absent :
    runLine defaultRoms "8B10B 10101011 00000001 00000000" = some "ERR UnknownSymbol(0x01)" := by decide +kernel
theorem test_line_V12_padding : runLine defaultRoms "ENC8B10B 10101011 1" = some "ERR UnknownSymbol(0x80)" := by decide +kernel
theorem test_line_V14 : runLine defaultRoms "MANCH.VFY 0110" = some "OK out=01101001 lbl=[2,13,13,2]" := by decide +kernel
theorem test_line_V15 : runLine defaultRoms "0x19 1" = some "ERR InvalidInput" := by decide +kernel
theorem test_line_pseudo_form_and_hex :
    runLine defaultRoms "8B10B x\"AB\"" = some "OK out=1010101100 lbl=[AB]" ∧
    runLine defaultRoms "64B66B control -" = some "OK out=-" := by decide +kernel

/-- V11: all sixteen values in order under the default table. -/
theorem test_line_V11_all_values :
    runLine defaultRoms "4B5B x\"0123456789ABCDEF\"" = some
      ("OK out=" ++ "11110010011010010101010100101101110011111001010011101101011111010110111110011101" ++
        " lbl=[0,1,2,3,4,5,6,7,8,9,A,B,C,D,E,F]") := by decide +kernel

/-! ## A witness for the hypotheses of every statement that has some, and for each of its clauses -/

theorem witness_BlockValueAndItsBitsAreInverse : (0 : Nat) < 1 ∧ (255 : Nat) < 2 ^ 8 := by decide

theorem witness_ChunkPadsOnlyTheLastBlock :
    1 ≤ 4 ∧ 1 < (chunk (bits "11111") 4).length ∧ 0 + 1 < (chunk (bits "11111") 4).length ∧ (bits "1111").length % 4 = 0 := by
  decide +kernel

theorem witness_BlockAndPaddingCounts : 1 ≤ 2 ∧ 0 < 1 ∧ 1 < 2 := by decide

theorem witness_PackedBytesKeepBitOrder : 7 < 8 ∧ 8 * 0 + 7 < (bits "10101011").length := by decide +kernel

theorem witness_UnreadRomWordsDoNotMatter :
    let s := inCall .enc8b10b (bits "10101011") 0
    let r : Roms := { defaultRoms with t45 := defaultT45.set 0 0, t810 := defaultT810.set 0 1 }
    r.t810v = s.roms.t810v ∧ r ≠ s.roms ∧ (∀ v, present s.roms v = true → t810Word r v = t810Word s.roms v) ∧
    ∃ t, exec .enc8b10b s = .next t := by
  refine ⟨rfl, by decide +kernel, ?_, ⟨_, rfl⟩⟩
  intro v h
  have hv : v < 256 := by
    by_contra hc
    have : present defaultRoms v = false := by simp [present, Vector.getD, Nat.not_lt.mp hc]
    exact Bool.noConfusion (this.symm.trans h)
  have h0 : v ≠ 0 := by
    rintro rfl
    have : present defaultRoms 0 = false := by decide +kernel
    exact Bool.noConfusion (this.symm.trans h)
  show (defaultT810.set 0 1).getD v 0 = defaultT810.getD v 0
  simp [Vector.getD, hv, Ne.symm h0]

theorem witness_StartLatchesTheCall :
    (inCall .manch [] 0).status = .busy ∧ State.reset.status ≠ .busy ∧ (∃ i, decode 0x01 = .ok i) ∧
    ∀ i, decode 0x00 ≠ .ok i := by
  refine ⟨rfl, by decide, ⟨.chunk4, rfl⟩, ?_⟩
  intro i h
  cases h

theorem witness_CallDoesNotDependOnEarlierCalls :
    let t : State := { State.reset with status := .err, ecode := .unknownSymbol, eval := 1, blk := 3, cmd := 0x03, inp := [true] }
    State.reset.status ≠ .busy ∧ t.status ≠ .busy ∧ State.reset.roms = t.roms ∧ State.reset.host = t.host :=
  ⟨by decide, by decide, rfl, rfl⟩

theorem witness_HostReadsAsTheStatusAllows : (inCall .manch [] 0).status = .busy ∧ State.reset.status ≠ .busy := by decide

theorem witness_FiniteBuildRefusesAndNeverTruncates : 0 < (bits "1").length ∧ (bits "1").length ≤ 1 := by decide +kernel

theorem witness_StepRunsTheCommandInCmd :
    let s := inCall .manch (bits "01") 1
    s.status = .busy ∧ decode s.cmd = .ok .manch ∧ s.host = [] ∧
    ({ s with host := [.start 0x01 []] } : State).host = .start 0x01 [] :: [] ∧
    ({ s with host := [.wait] } : State).host = .wait :: [] := ⟨rfl, rfl, rfl, rfl, rfl⟩

theorem witness_StepTakesTheHostsMove :
    ({ State.reset with host := [.start 0x01 []] } : State).status ≠ .busy ∧
    ({ inCall .manch [] 0 with host := [.reset] } : State).host = .reset :: [] ∧
    (State.reset.host = [] ∧ State.reset.status ≠ .busy) ∧
    ({ State.reset with host := [.wait] } : State).status ≠ .busy := by decide

theorem witness_CoreStepEnabledExactlyInACall :
    ((inCall .chunk4 (bits "1") 1).status = .busy ∧ (inCall .chunk4 (bits "1") 1).blk ≤ numBlocks .chunk4 (bits "1")) ∧
    State.reset.status ≠ .busy ∧ numBlocks .chunk4 (bits "1") < (inCall .chunk4 (bits "1") 2).blk := by decide +kernel

theorem witness_FinishSetsDoneAndNothingElse :
    (inCall .chunk4 (bits "1") 1).status = .busy ∧ (inCall .chunk4 (bits "1") 1).blk = numBlocks .chunk4 (bits "1") ∧
    State.reset.status ≠ .busy := by decide +kernel

/-- A call in progress before its last block, at each width, and a state in which a call can start. -/
theorem witness_ChunkCommandsCopyThePaddedInput :
    ((inCall .chunk4 (bits "1") 0).status = .busy ∧ (inCall .chunk4 (bits "1") 0).blk < ceilDiv (bits "1").length 4) ∧
    ((inCall .chunk8 (bits "1") 0).status = .busy ∧ (inCall .chunk8 (bits "1") 0).blk < ceilDiv (bits "1").length 8) ∧
    ((inCall .chunk64 (bits "1") 0).status = .busy ∧ (inCall .chunk64 (bits "1") 0).blk < ceilDiv (bits "1").length 64) ∧
    State.reset.status ≠ .busy ∧ State.reset.host = [] := by decide +kernel

theorem witness_Enc4b5bEncodesEveryBlock :
    (inCall .enc4b5b (bits "1") 0).status = .busy ∧ (inCall .enc4b5b (bits "1") 0).blk < ceilDiv (bits "1").length 4 ∧
    State.reset.status ≠ .busy ∧ State.reset.host = [] := by decide +kernel

theorem witness_Enc8b10bEncodesOrAborts :
    let s := inCall .enc8b10b (bits "10101011 00000000") 0
    let u := inCall .enc8b10b (bits "10101011 00000000") 1
    (s.status = .busy ∧ s.blk < ceilDiv s.inp.length 8 ∧ present s.roms (val (memRead s.inp (8 * s.blk) 8)) = true) ∧
    (u.status = .busy ∧ u.blk < ceilDiv u.inp.length 8 ∧ present u.roms (val (memRead u.inp (8 * u.blk) 8)) = false) ∧
    State.reset.status ≠ .busy ∧ State.reset.host = [] ∧
    (∀ j, j < ceilDiv (bits "10101011").length 8 → present State.reset.roms (val (memRead (bits "10101011") (8 * j) 8)) = true) ∧
    (1 < ceilDiv s.inp.length 8 ∧ (∀ j, j < 1 → present State.reset.roms (val (memRead s.inp (8 * j) 8)) = true) ∧
      present State.reset.roms (val (memRead s.inp (8 * 1) 8)) = false) := by decide +kernel

theorem witness_FramerPutsTheHeaderBeforeEachBlock :
    (inCall .frame66D (bits "1") 0).status = .busy ∧ (inCall .frame66D (bits "1") 0).blk < ceilDiv (bits "1").length 64 ∧
    (inCall .frame66C (bits "1") 0).status = .busy ∧ (inCall .frame66C (bits "1") 0).blk < ceilDiv (bits "1").length 64 ∧
    State.reset.status ≠ .busy ∧ State.reset.host = [] := by decide +kernel

theorem witness_ManchesterEncodesEachBitAlone :
    (inCall .manch (bits "01") 1).status = .busy ∧ (inCall .manch (bits "01") 1).inp[1]? = some true ∧
    State.reset.status ≠ .busy ∧ State.reset.host = [] := by decide +kernel

theorem witness_VerifyingManchesterAddsOneRecordABit :
    (inCall .manchVfy (bits "01") 1).status = .busy ∧ (inCall .manchVfy (bits "01") 1).inp[1]? = some true ∧
    State.reset.status ≠ .busy ∧ State.reset.host = [] := by decide +kernel

/-- Every command takes a BLOCK step somewhere, and ENC8B10B an abort too: the hypotheses of the statements about every CORE step
(CoreStepKeepsRomsCommandAndInput, OutputIsOnlyAppendedToOrEmptied, OneLabelABlockForThreeCommands, CursorAdvancesByOneOrStays,
OnlyEnc8b10bRaises, and the last clause of VerificationRecordFields). -/
theorem witness_every_command_steps (i : Instr) :
    ∃ t, exec i (inCall i (bits "10101011") 0) = .next t ∧ t.status = .busy :=
  next_of_written (by cases i <;> decide +kernel)

theorem witness_OnlyEnc8b10bRaises_empty : ∃ t, exec .enc8b10b (inCall .enc8b10b [] 0) = .next t := ⟨_, rfl⟩

theorem witness_NoStepWritesARom : ∃ t, step { inCall .manch [] 0 with host := [.reset] } = .next t := ⟨_, rfl⟩

theorem witness_CommandAndInputAreFixedDuringACall :
    ∃ t, step (inCall .manch (bits "1") 0) = .next t ∧ (inCall .manch (bits "1") 0).status = .busy ∧ t.status = .busy :=
  ⟨_, rfl, rfl, rfl⟩

theorem witness_Enc4b5bOutputDeterminesThePaddedInput :
    T45Admissible defaultRoms ∧ callOf defaultRoms (bits "1") .enc4b5b = .ok (bits "10010") [8] ∧
    callOf defaultRoms (bits "1000") .enc4b5b = .ok (bits "10010") [8] := by decide +kernel

theorem witness_Enc8b10bSucceedsExactlyOnPresentValues :
    callOf defaultRoms (bits "10101011") .enc8b10b = .ok (bits "1010101100") [0xAB] := by decide +kernel

theorem witness_UnknownSymbolIsTheFirstAbsentValue :
    (bits "10101011 00000001").length % 8 = 0 ∧
    callOf defaultRoms (bits "10101011 00000001") .enc8b10b = .unknownSymbol 1 := by decide +kernel

theorem witness_Enc8b10bOnAdmissibleTables : T810Admissible defaultRoms ∧ 1 ≤ 8 ∧ 8 ≤ 8 := by decide +kernel

theorem witness_FramesKeepHeaderAndPayload : 0 < ceilDiv (bits "1").length 64 ∧ 63 < 64 := by decide +kernel

theorem witness_FramerPutsTheHeaderBeforeEachBlock_modes :
    callOf defaultRoms (bits "1") .frame66D = .ok (bits "011" ++ zeros 63) [] ∧
    callOf defaultRoms (bits "1") .frame66C = .ok (bits "101" ++ zeros 63) [] ∧
    (bits "011" ++ zeros 63)[0]? = some false := by decide +kernel

theorem witness_ManchesterLevelsFollowTheirBit :
    (bits "01")[1]? = some true ∧ bits "00" = List.replicate (bits "00").length false ∧
    bits "11" = List.replicate (bits "11").length true := by decide +kernel

theorem witness_EncodingTheChunkedInputChangesNothing :
    callOf defaultRoms (bits "101") .chunk4 = .ok (bits "1010") [] := by decide +kernel

theorem witness_SplittingAtABlockBoundaryIsHarmless :
    (bits "10101011").length % blockWidth .enc8b10b = 0 ∧
    callOf defaultRoms (bits "10101011") .enc8b10b = .ok (bits "1010101100") [0xAB] ∧
    callOf defaultRoms (bits "1") .enc8b10b = .unknownSymbol 0x80 ∧
    (bits "00000000").length % blockWidth .enc8b10b = 0 ∧
    callOf defaultRoms (bits "00000000") .enc8b10b = .unknownSymbol 0 := by decide +kernel

/-- A state inside a call that meets the invariant. -/
theorem witness_invariant_busy : Inv (inCall .manch (bits "01") 0) ∧ (inCall .manch (bits "01") 0).status = .busy ∧
    decode (inCall .manch (bits "01") 0).cmd = .ok .manch ∧ (inCall .manch (bits "01") 0).host = [] := by
  refine ⟨⟨.manch, rfl, by decide +kernel, ?_, rfl, rfl, rfl, rfl⟩, rfl, rfl, rfl⟩
  intro j hj
  exact absurd hj (Nat.not_lt_zero j)

/-- The hypotheses of EveryStepKeepsTheInvariant, NoReachableStateIsStuck, EveryCallReachesItsEnd. -/
theorem witness_EveryStepKeepsTheInvariant : ∃ s t : State, Inv s ∧ s.status = .busy ∧ step s = .next t :=
  ⟨_, _, witness_invariant_busy.1, rfl, rfl⟩

/-- A state that meets the invariant in ERR by `InvalidInput`, one in ERR by `UnknownSymbol`, one in DONE. -/
theorem witness_invariant_ended :
    Inv (startCall 0x19 [] State.reset) ∧
    Inv { inCall .enc8b10b (bits "00000000") 0 with status := .err, ecode := .unknownSymbol, eval := 0 } ∧
    Inv { inCall .manch [] 0 with status := .done } := by
  refine ⟨.inr ⟨?_, rfl, rfl, rfl, rfl, rfl⟩, .inl ⟨rfl, by decide +kernel, ?_, by decide +kernel, by decide +kernel, rfl, rfl, rfl⟩,
    ⟨.manch, ⟨rfl, by decide, ?_, rfl, rfl, rfl, rfl⟩, rfl⟩⟩
  · intro i h
    cases h
  · intro j hj
    exact absurd hj (Nat.not_lt_zero j)
  · intro j hj
    exact absurd hj (Nat.not_lt_zero j)

theorem witness_StepMachineAgreesWithTheCall : State.reset.status ≠ .busy ∧ State.reset.host = [] := by decide

theorem witness_CallTakesExactlyItsSteps :
    call 0x03 State.reset.roms (bits "10101011") = .ok (bits "1010101100") [0xAB] ∧
    call 0x03 State.reset.roms (bits "00000000") = .unknownSymbol 0 ∧
    call 0x00 State.reset.roms [] = .invalidInput := by decide +kernel

theorem witness_HostNeverSeesAPartialResult :
    let s := startCall 0x19 [] State.reset
    Inv s ∧ hostRead .out s = .next (.bits []) ∧ hostRead .lbl s = .next (.labels []) :=
  ⟨witness_invariant_ended.1, rfl, rfl⟩

theorem witness_HostNeverSeesAPartialResult_done :
    let s : State := { inCall .manch [] 0 with status := .done }
    Inv s ∧ s.status = .done ∧ hostRead .out s = .next (.bits []) ∧ hostRead .lbl s = .next (.labels []) :=
  ⟨witness_invariant_ended.2.2, rfl, rfl, rfl⟩

theorem witness_ErrorRegistersNameTheCause :
    (startCall 0x19 [] State.reset).ecode = .invalidInput ∧ State.reset.ecode = .none ∧
    ({ inCall .enc8b10b (bits "00000000") 0 with status := .err, ecode := .unknownSymbol, eval := 0 } : State).ecode =
      .unknownSymbol := ⟨rfl, rfl, rfl⟩

theorem witness_CoresDoNotAffectEachOther :
    (∃ after, Cluster.stepAt 1 [State.reset, inCall .manch (bits "1") 0] = .next after) ∧
    Cluster.SharesRoms [State.reset, inCall .manch (bits "1") 0] := by
  refine ⟨⟨_, rfl⟩, ?_⟩
  intro s hs t ht
  simp only [List.mem_cons, List.not_mem_nil, or_false] at hs ht
  rcases hs with rfl | rfl <;> rcases ht with rfl | rfl <;> rfl

theorem witness_LabelTextIsUpperCaseHexadecimal : (15 : Nat) < 16 ∧ (255 : Nat) < 256 := by decide

end Sys2Proof.Machine
end

section
/-! The results of calls: a command's call ends in `Ok` or `UnknownSymbol`; `InvalidInput` is left to the words that are no command. -/

namespace Sys2Proof.Machine

/-- The loop of ENC8B10B ends in `Ok` or `UnknownSymbol`, whatever it has staged (R154, R155). -/
theorem enc8b10bLoop_ne_invalidInput (r : Roms) (bs : List BitSeq) (out : BitSeq) (lbl : List Label) :
    enc8b10bLoop r bs out lbl ≠ .invalidInput := by
  induction bs generalizing out lbl with
  | nil => exact CallResult.noConfusion
  | cons b bs ih =>
    rw [enc8b10bLoop]
    split
    · exact ih _ _
    · exact CallResult.noConfusion

/-- No command raises `InvalidInput` (R213): all but ENC8B10B answer `Ok` on every input. -/
theorem callOf_ne_invalidInput (r : Roms) (s : BitSeq) (i : Instr) : callOf r s i ≠ .invalidInput := by
  cases i with
  | enc8b10b => exact enc8b10bLoop_ne_invalidInput r (chunk s 8) [] []
  | _ => exact CallResult.noConfusion

theorem call_of_command {c : Word8} {i : Instr} (h : decode c = .ok i) (r : Roms) (s : BitSeq) :
    call c r s = callOf r s i := by simp [call, h]

theorem call_of_invalid {c : Word8} {e : DecodeReject} (h : decode c = .error e) (r : Roms) (s : BitSeq) :
    call c r s = .invalidInput := by simp [call, h]

/-- Settles O42, by the decoder's two answers: a command's call never ends in `InvalidInput`, any other word's always does. -/
theorem invalidInputExactlyForInvalidWords : Obligations.InvalidInputExactlyForInvalidWords := by
  intro c r s
  cases h : decode c with
  | ok i => simp [call_of_command h, callOf_ne_invalidInput]
  | error e => simp [call_of_invalid h]

end Sys2Proof.Machine
end

section
/-! The host's side: START by its enabling condition, what a call owes to the state before it, and the reads. -/

namespace Sys2Proof.Machine

variable {s : State}

theorem hostStart_notBusy (c : Word8) (input : BitSeq) (hb : s.status ≠ .busy) :
    hostStart c input s = .next (startCall c input s) := by simp [hostStart, hb]

theorem hostStart_busy (c : Word8) (input : BitSeq) (hb : s.status = .busy) :
    hostStart c input s = .refused .startWhileBusy := by simp [hostStart, hb]

/-- Settles O11: START by its enabling condition and by the decoder's answer. -/
theorem startLatchesTheCall : Obligations.StartLatchesTheCall := by
  intro s c input
  refine ⟨hostStart_busy c input, fun hb ⟨i, hd⟩ => ?_, fun hb hd => ?_⟩
  · rw [hostStart_notBusy c input hb, startCall_of_command _ _ hd]
  · rw [hostStart_notBusy c input hb]
    cases h : decode c with
    | ok i => exact absurd h (hd i)
    | error e => rw [startCall_of_invalid _ _ h]

/-- START leaves nothing of the state before it but the ROMs and the host's moves (R33, R35). -/
theorem startCall_congr {s t : State} (c : Word8) (input : BitSeq) (hr : s.roms = t.roms) (hh : s.host = t.host) :
    startCall c input s = startCall c input t := by
  cases h : decode c with
  | ok i => rw [startCall_of_command _ _ h, startCall_of_command _ _ h, hr, hh]
  | error e => rw [startCall_of_invalid _ _ h, startCall_of_invalid _ _ h, hr, hh]

/-- Settles O12: the two calls start in the same state. -/
theorem callDoesNotDependOnEarlierCalls : Obligations.CallDoesNotDependOnEarlierCalls := by
  intro s t c input k _ _ hr hh
  rw [startCall_congr c input hr hh]

theorem status_code_injective : Function.Injective Status.code := by
  intro a b h
  cases a <;> cases b <;> simp_all [Status.code]

theorem errKind_code_injective : Function.Injective ErrKind.code := by
  intro a b h
  cases a <;> cases b <;> simp_all [ErrKind.code]

theorem errKind_code_ne_three (e : ErrKind) : e.code ≠ 3 := by cases e <;> decide

theorem hostRead_out_notBusy (hb : s.status ≠ .busy) : hostRead .out s = .next (.bits s.out) := by simp [hostRead, hb]

theorem hostRead_lbl_notBusy (hb : s.status ≠ .busy) : hostRead .lbl s = .next (.labels s.lbl) := by simp [hostRead, hb]

theorem hostRead_out_busy (hb : s.status = .busy) : hostRead .out s = .refused .readWhileBusy := by simp [hostRead, hb]

theorem hostRead_lbl_busy (hb : s.status = .busy) : hostRead .lbl s = .refused .readWhileBusy := by simp [hostRead, hb]

/-- Settles O13: the reads of the registers are theirs by definition, those of the buffers by `STATUS`; the codes are injective. -/
theorem hostReadsAsTheStatusAllows : Obligations.HostReadsAsTheStatusAllows := by
  intro s
  exact ⟨rfl, rfl, rfl, rfl, fun hb => ⟨hostRead_out_busy hb, hostRead_lbl_busy hb⟩,
    fun hb => ⟨hostRead_out_notBusy hb, hostRead_lbl_notBusy hb⟩,
    status_code_injective.eq_iff (b := .idle), status_code_injective.eq_iff (b := .busy),
    status_code_injective.eq_iff (b := .done), status_code_injective.eq_iff (b := .err),
    errKind_code_injective.eq_iff (b := .none), errKind_code_injective.eq_iff (b := .unknownSymbol),
    errKind_code_injective.eq_iff (b := .invalidInput), errKind_code_ne_three _⟩

end Sys2Proof.Machine
end

section
/-! A step by whose turn it is, a command placed in `CMD`, and when a CORE step is enabled. -/

namespace Sys2Proof.Machine

variable {s : State} {i : Instr}

/-! One equation of `step` for each move of the host (R35, R250, log 2). -/

theorem step_start_busy {c : Word8} {input : BitSeq} {rest : List HostMove} (hh : s.host = .start c input :: rest)
    (hb : s.status = .busy) : step s = coreTurn s := by simp [step, cycle, hh, hb]

theorem step_start_notBusy {c : Word8} {input : BitSeq} {rest : List HostMove} (hh : s.host = .start c input :: rest)
    (hb : s.status ≠ .busy) : step s = .next (startCall c input { s with host := rest }) := by
  simp [step, cycle, hh, hb]

theorem step_reset {rest : List HostMove} (hh : s.host = .reset :: rest) :
    step s = .next (hostReset { s with host := rest }) := by simp [step, cycle, hh]

theorem step_wait {rest : List HostMove} (hh : s.host = .wait :: rest) : step s = coreTurn { s with host := rest } := by
  simp [step, cycle, hh]

/-- With a silent host, a step in BUSY is the CORE step of the command in `CMD`. -/
theorem step_of_command (hh : s.host = []) (hb : s.status = .busy) (hd : decode s.cmd = .ok i) : step s = exec i s := by
  rw [step_silent hh, coreTurn_busy hb hd]

/-- A CORE step is enabled throughout a call: BLOCK before `NB`, FINISH at `NB` (R36, R37). -/
theorem exec_enabled (hb : s.status = .busy) (hle : s.blk ≤ numBlocks i s.inp) : ∃ t, exec i s = .next t := by
  rcases hle.lt_or_eq with hlt | heq
  · exact ⟨_, exec_block hb hlt⟩
  · exact ⟨_, exec_finish hb heq⟩

theorem exec_notBusy (i : Instr) (hb : s.status ≠ .busy) : exec i s = .fault .notBusy := by
  rw [exec_eq_coreStep, coreStep_notBusy _ _ hb]

theorem exec_pastEnd (hb : s.status = .busy) (hlt : numBlocks i s.inp < s.blk) : exec i s = .fault .cursorPastEnd := by
  rw [exec_eq_coreStep, coreStep_pastEnd _ hb hlt]

@[simp] theorem numBlocks_nil (i : Instr) : numBlocks i [] = 0 := ceilDiv_zero _ (blockWidth_pos i)

@[simp] theorem commandWord_toNat (w : Word8) : commandWord 8 w.toNat = w := by
  rw [commandWord, Nat.mod_eq_of_lt w.isLt, BitVec.ofNat_toNat, BitVec.setWidth_eq]

/-- Placing a command's word is START of that command on the input in `IN`, with a silent host (log 8). -/
theorem withFetchWord_encode (s : State) (i : Instr) :
    s.withFetchWord 8 (encode i).toNat = startCall (encode i) s.inp { s with host := [] } := by
  simp [State.withFetchWord, placeCommand]

theorem startCall_encode_status (s : State) (i : Instr) (input : BitSeq) :
    (startCall (encode i) input s).status = .busy := by
  rw [startCall_of_command _ _ (decode_encode i)]

/-- Settles O18: the four answers of `coreStep`, at the command's width. -/
theorem coreStepEnabledExactlyInACall : Obligations.CoreStepEnabledExactlyInACall := by
  intro i s
  refine ⟨⟨?_, fun ⟨hb, hle⟩ => exec_enabled hb hle⟩, exec_notBusy i, exec_pastEnd⟩
  rintro ⟨t, h⟩
  obtain ⟨hb, ⟨hlt, -⟩ | ⟨heq, -⟩ | ⟨-, hlt, -⟩⟩ := exec_next h
  · exact ⟨hb, hlt.le⟩
  · exact ⟨hb, heq.le⟩
  · exact ⟨hb, hlt.le⟩

/-- Settles O15: `step` by the host's next move, then the CORE's turn in BUSY. -/
theorem stepRunsTheCommandInCmd : Obligations.StepRunsTheCommandInCmd := by
  intro s i hb hd
  refine ⟨fun hh => step_of_command hh hb hd, fun c input rest hh => ?_, fun rest hh => ?_⟩
  · rw [step_start_busy hh hb, coreTurn_busy hb hd]
  · exact (step_wait hh).trans (coreTurn_busy hb hd)

/-- Settles O16: `step` by the host's next move, the CORE's turn being idle outside BUSY. -/
theorem stepTakesTheHostsMove : Obligations.StepTakesTheHostsMove := by
  intro s
  refine ⟨fun c input rest hh hb => ?_, fun rest => step_reset, fun hh hb => ?_, fun rest hh hb => ?_⟩
  · exact (step_start_notBusy hh hb).trans (hostStart_notBusy (s := { s with host := rest }) c input hb).symm
  · rw [step_silent hh, coreTurn_notBusy hb]
  · exact (step_wait hh).trans (coreTurn_notBusy hb)

/-- Settles O17: the placed command is started with the cursor at 0, where a CORE step is enabled. -/
theorem placedCommandRunsNext : Obligations.PlacedCommandRunsNext := by
  intro s i
  rw [withFetchWord_encode]
  have hb := startCall_encode_status { s with host := [] } i s.inp
  have hstep := step_of_command (i := i) (startCall_host { s with host := [] } (encode i) s.inp) hb (by simp)
  exact ⟨by simp, hstep, hstep ▸ exec_enabled hb (by simp)⟩

/-- Settles O19: FINISH at `NB`, which is 0 for the empty input. -/
theorem finishSetsDoneAndNothingElse : Obligations.FinishSetsDoneAndNothingElse := by
  refine ⟨fun i s => exec_finish, fun i s _ => ?_⟩
  rw [startCall_of_command _ _ (decode_encode i)]
  exact exec_finish rfl (numBlocks_nil i).symm

end Sys2Proof.Machine
end

section
/-! What a CORE step of any command keeps, appends and moves, and which ROM words it reads. Each proof goes through the three
outcomes of `exec_next`: a block encoded, FINISH, the abort of ENC8B10B. -/

namespace Sys2Proof.Machine

/-- Settles O26: none of the three outcomes writes a ROM, `CMD`, `IN` or the host's moves. -/
theorem coreStepKeepsRomsCommandAndInput : Obligations.CoreStepKeepsRomsCommandAndInput := by
  intro i s t h
  obtain ⟨-, ⟨-, -, rfl⟩ | ⟨-, rfl⟩ | ⟨-, -, -, rfl⟩⟩ := exec_next h
  · exact ⟨rfl, rfl, rfl, rfl⟩
  · exact ⟨rfl, rfl, rfl, rfl⟩
  · exact ⟨rfl, rfl, rfl, rfl⟩

/-- The CORE's turn writes no ROM (R24). -/
theorem coreTurn_keeps_roms {s t : State} (h : coreTurn s = .next t) : t.roms = s.roms := by
  obtain ⟨-, rfl⟩ | ⟨-, i, -, he⟩ := coreTurn_next h
  · rfl
  · exact (coreStepKeepsRomsCommandAndInput i s t he).1

/-- Settles O27, by whose move the step is: the CORE's, a reset, or a START. -/
theorem noStepWritesARom : Obligations.NoStepWritesARom := by
  intro s t h
  obtain ⟨moves, hc⟩ | ⟨rest, -, rfl⟩ | ⟨c, input, rest, -, -, rfl⟩ := step_next h
  · exact coreTurn_keeps_roms (s := { s with host := moves }) hc
  · exact hostReset_roms _
  · exact startCall_roms _ c input

theorem blockNo_length (i : Instr) (input : BitSeq) (j : Nat) : (blockNo i input j).length = blockWidth i :=
  memRead_length _ _ _

/-- Settles O28: a block's output has `W_out` bits. -/
theorem outputIsOnlyAppendedToOrEmptied : Obligations.OutputIsOnlyAppendedToOrEmptied := by
  intro i s t h
  obtain ⟨hb, ⟨-, -, rfl⟩ | ⟨-, rfl⟩ | ⟨-, -, -, rfl⟩⟩ := exec_next h
  · exact .inl ⟨hb, _, blockOut_length i s.roms _ (blockNo_length i s.inp s.blk), rfl⟩
  · exact .inr (.inl ⟨rfl, rfl, rfl⟩)
  · exact .inr (.inr ⟨rfl, rfl, rfl⟩)

/-- Settles O30: the cursor in the three outcomes. -/
theorem cursorAdvancesByOneOrStays : Obligations.CursorAdvancesByOneOrStays := by
  intro i s t h
  obtain ⟨hb, ⟨hlt, -, rfl⟩ | ⟨heq, rfl⟩ | ⟨rfl, hlt, -, rfl⟩⟩ := exec_next h
  · exact .inl ⟨hb, rfl, hlt⟩
  · exact .inr (.inl ⟨rfl, rfl, heq⟩)
  · exact .inr (.inr ⟨rfl, rfl, hlt⟩)

/-- A CORE step after which the call goes on is a BLOCK step on a block that encodes (R36, R37, R214). -/
theorem exec_next_busy {i : Instr} {s t : State} (h : exec i s = .next t) (ht : t.status = .busy) :
    s.blk < numBlocks i s.inp ∧ blockEncodes i s.roms s.inp s.blk ∧ t = { s with
      out := s.out ++ blockOut s.roms (blockNo i s.inp s.blk) i,
      lbl := s.lbl ++ blockLabels (blockNo i s.inp s.blk) i, blk := s.blk + 1 } := by
  obtain ⟨-, hblock | ⟨-, rfl⟩ | ⟨-, -, -, rfl⟩⟩ := exec_next h
  · exact hblock
  · exact Status.noConfusion ht
  · exact Status.noConfusion ht

/-- The value of a block of at most 8 bits fits a label (R28). -/
theorem val_lt_256 {b : BitSeq} (h : b.length ≤ 8) : val b < 256 :=
  (val_lt b).trans_le (Nat.pow_le_pow_right (by decide) h)

/-- A block of ENC4B5B, ENC8B10B or MANCH.VFY has one label, below 256 (R28). -/
theorem blockLabels_one {i : Instr} {b : BitSeq} (hb : b.length = blockWidth i)
    (hi : i ∈ [Instr.enc4b5b, .enc8b10b, .manchVfy]) : ∃ v, v < 256 ∧ blockLabels b i = [v] := by
  simp only [List.mem_cons, List.not_mem_nil, or_false] at hi
  obtain rfl | rfl | rfl := hi
  · exact ⟨val b, val_lt_256 (by simp [hb, blockWidth]), rfl⟩
  · exact ⟨val b, val_lt_256 (by simp [hb, blockWidth]), rfl⟩
  · exact ⟨vfy (b.getD 0 false), vfy_lt _, rfl⟩

/-- A block of any other command has no label (R28). -/
theorem blockLabels_none {i : Instr} (b : BitSeq) (hi : i ∉ [Instr.enc4b5b, .enc8b10b, .manchVfy]) :
    blockLabels b i = [] := by
  cases i with
  | enc4b5b | enc8b10b | manchVfy => simp at hi
  | _ => rfl

/-- Settles O29: the labels of the one block that the step has encoded. -/
theorem oneLabelABlockForThreeCommands : Obligations.OneLabelABlockForThreeCommands := by
  intro i s t h ht
  obtain ⟨-, -, rfl⟩ := exec_next_busy h ht
  refine ⟨fun hi => ?_, fun hi => ?_⟩
  · obtain ⟨v, hv, hl⟩ := blockLabels_one (blockNo_length i s.inp s.blk) hi
    exact ⟨v, hv, by rw [hl]⟩
  · simp [blockLabels_none _ hi]

/-- Settles O32: a step from BUSY to BUSY is neither START nor reset, so it is a BLOCK step. -/
theorem commandAndInputAreFixedDuringACall : Obligations.CommandAndInputAreFixedDuringACall := by
  intro s t h hs ht
  obtain ⟨moves, hc⟩ | ⟨rest, -, rfl⟩ | ⟨c, input, rest, -, hns, -⟩ := step_next h
  · obtain ⟨hns, -⟩ | ⟨-, i, -, he⟩ := coreTurn_next hc
    · exact absurd hs hns
    · obtain ⟨-, -, rfl⟩ := exec_next_busy he ht
      exact ⟨rfl, rfl, rfl, rfl⟩
  · exact Status.noConfusion ht
  · exact absurd hs hns

/-- The output of a block reads only the codewords of its own command's table, at the block's value (R23, R24). -/
theorem blockOut_congr_roms {i : Instr} {r r' : Roms} {b : BitSeq} (h45 : i = .enc4b5b → r.t45 = r'.t45)
    (h810 : i = .enc8b10b → t810Word r (val b) = t810Word r' (val b)) : blockOut r b i = blockOut r' b i := by
  cases i with
  | enc4b5b => simp [blockOut, rom45, t45Word, h45 rfl]
  | enc8b10b => simp [blockOut, rom810, h810 rfl]
  | _ => rfl

theorem present_congr {r r' : Roms} (h : r.t810v = r'.t810v) (v : Nat) : present r v = present r' v := by
  simp [present, h]

/-- Settles O9: the block at the cursor encodes, or is absent, under both ROMs, and encodes to the same output. -/
theorem unreadRomWordsDoNotMatter : Obligations.UnreadRomWordsDoNotMatter := by
  intro i s t r h45 h810 h
  obtain ⟨hb, ⟨hlt, henc, rfl⟩ | ⟨heq, rfl⟩ | ⟨rfl, hlt, habs, rfl⟩⟩ := exec_next h
  · have henc' : blockEncodes i r s.inp s.blk := fun hi => (present_congr (h810 hi).1 _).trans (henc hi)
    have hout : blockOut r (blockNo i s.inp s.blk) i = blockOut s.roms (blockNo i s.inp s.blk) i :=
      blockOut_congr_roms h45 fun hi => (h810 hi).2 _ (henc hi)
    have hstep := exec_encodes (i := i) (s := { s with roms := r }) hb hlt henc'
    rwa [hout] at hstep
  · exact exec_finish hb heq
  · have habs' : present r (val (blockNo .enc8b10b s.inp s.blk)) = false := (present_congr (h810 rfl).1 _).trans habs
    exact (exec_block (s := { s with roms := r }) hb hlt).trans (congrArg _ (blockStep_absent _ habs'))

end Sys2Proof.Machine
end

section
/-! The invariant: what it says for each `STATUS`, and that START, reset and every CORE step keep it. -/

namespace Sys2Proof.Machine

variable {s : State} {i : Instr}

/-- The invariant as one case for each value of `STATUS`. -/
theorem inv_iff (s : State) : Inv s ↔
    (s.status = .idle ∧ Fresh s) ∨ (s.status = .busy ∧ ∃ i, Staged i s) ∨
    (s.status = .done ∧ ∃ i, Staged i s ∧ s.blk = numBlocks i s.inp) ∨
    (s.status = .err ∧ (AbortedUnknown s ∨ AbortedInvalid s)) := by
  cases h : s.status <;> simp [Inv, h]

theorem Inv.exists_staged (h : Inv s) (hb : s.status = .busy) : ∃ i, Staged i s := by simpa [Inv, hb] using h

/-- In BUSY the invariant speaks of the command in `CMD` (R25). -/
theorem Inv.staged (h : Inv s) (hb : s.status = .busy) (hd : decode s.cmd = .ok i) : Staged i s := by
  obtain ⟨j, hj⟩ := h.exists_staged hb
  obtain rfl : i = j := Except.ok.inj (hd.symm.trans hj.command)
  exact hj

/-- The invariant does not speak of the host's moves still to come. -/
theorem Inv.setHost (h : Inv s) (moves : List HostMove) : Inv { s with host := moves } := by
  obtain ⟨hs, hf⟩ | ⟨hs, i, hst⟩ | ⟨hs, i, hst, hn⟩ | ⟨hs, hu | hv⟩ := (inv_iff s).mp h
  · exact (inv_iff _).mpr (.inl ⟨hs, { hf with }⟩)
  · exact (inv_iff _).mpr (.inr (.inl ⟨hs, i, { hst with }⟩))
  · exact (inv_iff _).mpr (.inr (.inr (.inl ⟨hs, i, { hst with }, hn⟩)))
  · exact (inv_iff _).mpr (.inr (.inr (.inr ⟨hs, .inl { hu with }⟩)))
  · exact (inv_iff _).mpr (.inr (.inr (.inr ⟨hs, .inr { hv with }⟩)))

theorem inv_hostReset (s : State) : Inv (hostReset s) :=
  (inv_iff _).mpr (.inl ⟨rfl, ⟨rfl, rfl, rfl, rfl, rfl, rfl, rfl⟩⟩)

/-- START of any word gives a state that meets the invariant, whatever the state before it (R35, R215). -/
theorem inv_startCall (c : Word8) (input : BitSeq) (s : State) : Inv (startCall c input s) := by
  cases h : decode c with
  | ok i =>
    rw [startCall_of_command _ _ h]
    exact (inv_iff _).mpr (.inr (.inl ⟨rfl, i, h, Nat.zero_le _, fun j hj => absurd hj (Nat.not_lt_zero j), rfl, rfl, rfl, rfl⟩))
  | error e =>
    rw [startCall_of_invalid _ _ h]
    refine (inv_iff _).mpr (.inr (.inr (.inr ⟨rfl, .inr ⟨fun i hi => ?_, rfl, rfl, rfl, rfl, rfl⟩⟩)))
    cases h.symm.trans hi

theorem stagedOut_succ (i : Instr) (r : Roms) (input : BitSeq) (n : Nat) :
    stagedOut i r input (n + 1) = stagedOut i r input n ++ blockOut r (blockNo i input n) i := by
  simp [stagedOut, List.range_succ, List.flatMap_append]

theorem stagedLabels_succ (i : Instr) (input : BitSeq) (n : Nat) :
    stagedLabels i input (n + 1) = stagedLabels i input n ++ blockLabels (blockNo i input n) i := by
  simp [stagedLabels, List.range_succ, List.flatMap_append]

/-- A block that encodes is staged with those before it (R30, R53). -/
theorem Staged.block (h : Staged i s) (hlt : s.blk < numBlocks i s.inp) (henc : blockEncodes i s.roms s.inp s.blk) :
    Staged i { s with
      out := s.out ++ blockOut s.roms (blockNo i s.inp s.blk) i,
      lbl := s.lbl ++ blockLabels (blockNo i s.inp s.blk) i, blk := s.blk + 1 } where
  command := h.command
  within := hlt
  encodes j hj := (Nat.lt_succ_iff_lt_or_eq.mp hj).elim (h.encodes j) fun he => he ▸ henc
  out := by rw [stagedOut_succ, ← h.out]
  lbl := by rw [stagedLabels_succ, ← h.lbl]
  ecode := h.ecode
  eval := h.eval

/-- A block without an entry aborts the call with the blocks before it done and the cursor at it (R155, R214). -/
theorem Staged.abort (h : Staged .enc8b10b s) (hlt : s.blk < numBlocks .enc8b10b s.inp)
    (habs : present s.roms (val (blockNo .enc8b10b s.inp s.blk)) = false) :
    AbortedUnknown (raiseUnknownSymbol (val (blockNo .enc8b10b s.inp s.blk)) s) where
  command := h.command
  within := hlt
  before := h.encodes
  absent := habs
  eval := rfl
  out := rfl
  lbl := rfl
  ecode := rfl

/-- A CORE step of the call that is staged keeps the invariant: a block goes on in BUSY, FINISH ends in DONE at `NB`, the abort in
ERR (R36, R37, R214). -/
theorem exec_keeps_inv {t : State} (h : Staged i s) (he : exec i s = .next t) : Inv t := by
  obtain ⟨hb, ⟨hlt, henc, rfl⟩ | ⟨heq, rfl⟩ | ⟨rfl, hlt, habs, rfl⟩⟩ := exec_next he
  · exact (inv_iff _).mpr (.inr (.inl ⟨hb, i, h.block hlt henc⟩))
  · exact (inv_iff _).mpr (.inr (.inr (.inl ⟨rfl, i, { h with }, heq⟩)))
  · exact (inv_iff _).mpr (.inr (.inr (.inr ⟨rfl, .inl (h.abort hlt habs)⟩)))

theorem coreTurn_keeps_inv {t : State} (h : Inv s) (hc : coreTurn s = .next t) : Inv t := by
  obtain ⟨-, rfl⟩ | ⟨hb, i, hd, he⟩ := coreTurn_next hc
  · exact h
  · exact exec_keeps_inv (h.staged hb hd) he

/-- Settles O44, by whose move the step is: the CORE's, a reset, or a START. -/
theorem everyStepKeepsTheInvariant : Obligations.EveryStepKeepsTheInvariant := by
  intro s t h hstep
  obtain ⟨moves, hc⟩ | ⟨rest, -, rfl⟩ | ⟨c, input, rest, -, -, rfl⟩ := step_next hstep
  · exact coreTurn_keeps_inv (h.setHost moves) hc
  · exact inv_hostReset _
  · exact inv_startCall c input _

/-- A state that meets the invariant has an answer to the CORE's turn: in BUSY its command is enabled (R36, R37). -/
theorem coreTurn_answers (h : Inv s) : ∃ t, coreTurn s = .next t := by
  by_cases hb : s.status = .busy
  · obtain ⟨i, hi⟩ := h.exists_staged hb
    rw [coreTurn_busy hb hi.command]
    exact exec_enabled hb hi.within
  · exact ⟨s, coreTurn_notBusy hb⟩

/-- Settles O45, by the host's next move. -/
theorem noReachableStateIsStuck : Obligations.NoReachableStateIsStuck := by
  intro s h
  rcases hh : s.host with _ | ⟨⟨c, input⟩ | _ | _, rest⟩
  · rw [step_silent hh]
    exact coreTurn_answers h
  · by_cases hb : s.status = .busy
    · rw [step_start_busy hh hb]
      exact coreTurn_answers h
    · exact ⟨_, step_start_notBusy hh hb⟩
  · exact ⟨_, step_reset hh⟩
  · rw [step_wait hh]
    exact coreTurn_answers (h.setHost rest)

/-- A step inside a call ends it, or goes on with the same call one block further (R25, R30). -/
theorem step_in_call (h : Inv s) (hb : s.status = .busy) (hd : decode s.cmd = .ok i) (hh : s.host = []) :
    ∃ t, step s = .next t ∧ (Ended t ∨
      (t.status = .busy ∧ decode t.cmd = .ok i ∧ t.host = [] ∧ t.inp = s.inp ∧ t.blk = s.blk + 1 ∧
        s.blk < numBlocks i s.inp)) := by
  obtain ⟨t, hstep⟩ := noReachableStateIsStuck s h
  have he : exec i s = .next t := (step_of_command hh hb hd).symm.trans hstep
  refine ⟨t, hstep, ?_⟩
  obtain ⟨hbusy, hblk, hlt⟩ | ⟨hdone, -⟩ | ⟨herr, -⟩ := cursorAdvancesByOneOrStays i s t he
  · obtain ⟨-, hcmd, hinp, hhost⟩ := coreStepKeepsRomsCommandAndInput i s t he
    exact .inr ⟨hbusy, hcmd ▸ hd, hhost.trans hh, hinp, hblk, hlt⟩
  · exact .inl (.inl hdone)
  · exact .inl (.inr herr)

/-- From a call with `n` blocks still to come, the end is at most `n + 1` steps away (R264). -/
theorem run_reaches_end (n : Nat) {s : State} (h : Inv s) (hb : s.status = .busy) (hd : decode s.cmd = .ok i)
    (hh : s.host = []) (hn : numBlocks i s.inp - s.blk = n) : ∃ k t, k ≤ n + 1 ∧ run k s = .next t ∧ Ended t := by
  induction n generalizing s with
  | zero =>
    obtain ⟨t, hstep, hend | ⟨-, -, -, -, -, hlt⟩⟩ := step_in_call h hb hd hh
    · exact ⟨1, t, le_rfl, run_succ_of_next 0 hstep, hend⟩
    · omega
  | succ n ih =>
    obtain ⟨t, hstep, hend | ⟨hbusy, hd', hh', hinp, hblk, -⟩⟩ := step_in_call h hb hd hh
    · exact ⟨1, t, by omega, run_succ_of_next 0 hstep, hend⟩
    · obtain ⟨k, u, hk, hrun, hend⟩ := ih (everyStepKeepsTheInvariant s t h hstep) hbusy hd' hh' (by rw [hinp]; omega)
      exact ⟨k + 1, u, by omega, (run_succ_of_next k hstep).trans hrun, hend⟩

/-- Settles O48, by the count of blocks still to come. -/
theorem everyCallReachesItsEnd : Obligations.EveryCallReachesItsEnd :=
  fun _ _ h hb hd hh => run_reaches_end _ h hb hd hh rfl

end Sys2Proof.Machine
end

section
/-! The call-level result block by block: all blocks encode, or ENC8B10B meets a first block without an entry; and the agreement of
the step machine with it. -/

namespace Sys2Proof.Machine

/-- The chunks at a command's width are the blocks of its call (R52, R110). -/
theorem chunk_eq_blocks (i : Instr) (s : BitSeq) :
    chunk s (blockWidth i) = (List.range (numBlocks i s)).map (blockNo i s) := by
  simp [chunk, numBlocks, blockNo, Nat.mul_comm]

/-- A chunk of width 1 is one input bit. -/
theorem chunk_one (s : BitSeq) : chunk s 1 = s.map fun b => [b] := by
  apply List.ext_getElem
  · simp [chunk]
  · intro n hn _
    have hlt : n < s.length := by simpa [chunk] using hn
    simp [chunk, memRead, hlt]

/-- The outputs of all blocks, put together, are what `OUT` has staged at `NB`. -/
theorem flatMap_chunk_blockOut (i : Instr) (r : Roms) (s : BitSeq) :
    ((chunk s (blockWidth i)).flatMap fun b => blockOut r b i) = stagedOut i r s (numBlocks i s) := by
  rw [chunk_eq_blocks, List.flatMap_map]; rfl

theorem flatMap_chunk_blockLabels (i : Instr) (s : BitSeq) :
    ((chunk s (blockWidth i)).flatMap fun b => blockLabels b i) = stagedLabels i s (numBlocks i s) := by
  rw [chunk_eq_blocks, List.flatMap_map]; rfl

/-- The loop of ENC8B10B over blocks that all have an entry (R154). -/
theorem enc8b10bLoop_of_present (r : Roms) {bs : List BitSeq} (h : ∀ b ∈ bs, present r (val b) = true) (out : BitSeq)
    (lbl : List Label) : enc8b10bLoop r bs out lbl =
      .ok (out ++ bs.flatMap fun b => rom810 r (val b)) (lbl ++ bs.map val) := by
  induction bs generalizing out lbl with
  | nil => simp [enc8b10bLoop]
  | cons b bs ih =>
    obtain ⟨hb, hbs⟩ := List.forall_mem_cons.mp h
    simp [enc8b10bLoop, hb, ih hbs]

/-- The loop of ENC8B10B stops at the first block without an entry, whatever comes after it (R155). -/
theorem enc8b10bLoop_of_absent (r : Roms) {pre post : List BitSeq} {b : BitSeq} (h : ∀ a ∈ pre, present r (val a) = true)
    (hb : present r (val b) = false) (out : BitSeq) (lbl : List Label) :
    enc8b10bLoop r (pre ++ b :: post) out lbl = .unknownSymbol (val b) := by
  induction pre generalizing out lbl with
  | nil => simp [enc8b10bLoop, hb]
  | cons a pre ih =>
    obtain ⟨ha, hpre⟩ := List.forall_mem_cons.mp h
    simp [enc8b10bLoop, ha, ih hpre]

/-- A call whose blocks all encode answers `Ok` with their outputs and labels in order (R112 to R114, R136, R154, R173, R174, R193,
R196). -/
theorem callOf_of_encodes {i : Instr} {r : Roms} {s : BitSeq} (h : ∀ j, j < numBlocks i s → blockEncodes i r s j) :
    callOf r s i = .ok (stagedOut i r s (numBlocks i s)) (stagedLabels i s (numBlocks i s)) := by
  rw [← flatMap_chunk_blockOut, ← flatMap_chunk_blockLabels]
  cases i with
  | chunk4 | chunk8 | chunk64 =>
    simp [callOf, callChunk, blockWidth, blockOut, blockLabels, List.flatMap_def]
  | enc4b5b => simp [callOf, callEnc4b5b, blockWidth, blockOut, blockLabels, ← List.map_eq_flatMap]
  | enc8b10b =>
    have hp : ∀ b ∈ chunk s 8, present r (val b) = true := by
      intro b hb
      obtain ⟨j, hj, rfl⟩ := List.mem_map.mp (chunk_eq_blocks .enc8b10b s ▸ hb)
      exact h j (List.mem_range.mp hj) rfl
    rw [callOf, callEnc8b10b, enc8b10bLoop_of_present r hp]
    simp [blockWidth, blockOut, blockLabels, ← List.map_eq_flatMap]
  | frame66D | frame66C => simp [callOf, callFrame66, blockWidth, blockOut, blockLabels]
  | manch | manchVfy =>
    simp [callOf, callManch, callManchVfy, blockWidth, blockOut, blockLabels, chunk_one, List.flatMap_map,
      ← List.map_eq_flatMap]

/-- The chunks at a command's width, split at block `n`. -/
theorem chunk_split {i : Instr} {s : BitSeq} {n : Nat} (hn : n < numBlocks i s) :
    ∃ post, chunk s (blockWidth i) = (List.range n).map (blockNo i s) ++ blockNo i s n :: post := by
  obtain ⟨k, hk⟩ := Nat.exists_eq_add_of_lt hn
  refine ⟨(List.range k).map fun j => blockNo i s (n + (j + 1)), ?_⟩
  rw [chunk_eq_blocks, hk, Nat.add_assoc, List.range_add, List.range_succ_eq_map]
  simp

/-- A call of ENC8B10B whose first block without an entry is block `n` answers the value of that block (R155). -/
theorem callOf_of_absent {r : Roms} {s : BitSeq} {n : Nat} (hn : n < numBlocks .enc8b10b s)
    (h : ∀ j, j < n → blockEncodes .enc8b10b r s j) (ha : present r (val (blockNo .enc8b10b s n)) = false) :
    callOf r s .enc8b10b = .unknownSymbol (val (blockNo .enc8b10b s n)) := by
  obtain ⟨post, hsplit⟩ : ∃ post, chunk s 8 = _ := chunk_split hn
  have hpre : ∀ b ∈ (List.range n).map (blockNo .enc8b10b s), present r (val b) = true := by
    intro b hb
    obtain ⟨j, hj, rfl⟩ := List.mem_map.mp hb
    exact h j (List.mem_range.mp hj) rfl
  rw [callOf, callEnc8b10b, hsplit, enc8b10bLoop_of_absent r hpre ha]

/-- Every block of a call encodes, or the call is of ENC8B10B and has a first block without an entry (R211, R212). -/
theorem encodes_or_first_absent (i : Instr) (r : Roms) (s : BitSeq) :
    (∀ j, j < numBlocks i s → blockEncodes i r s j) ∨
    (i = .enc8b10b ∧ ∃ n, n < numBlocks .enc8b10b s ∧ (∀ j, j < n → blockEncodes .enc8b10b r s j) ∧
      present r (val (blockNo .enc8b10b s n)) = false) := by
  classical
  by_cases h : ∃ n, n < numBlocks i s ∧ ¬ blockEncodes i r s n
  · obtain ⟨hlt, hne⟩ := Nat.find_spec h
    obtain ⟨rfl, habs⟩ : i = .enc8b10b ∧ present r (val (blockNo i s (Nat.find h))) = false := by
      simpa [blockEncodes] using hne
    refine .inr ⟨rfl, Nat.find h, hlt, fun j hj => ?_, habs⟩
    by_contra hj'
    exact Nat.find_min h hj ⟨hj.trans hlt, hj'⟩
  · push Not at h
    exact .inl h

/-- A word that decodes to a command is that command's word (R81, R86). -/
theorem encode_of_decode {w : Word8} {i : Instr} (h : decode w = .ok i) : encode i = w := by
  have hall : ∀ w : Word8, ∀ i ∈ (decode w).toOption, encode i = w := by decide
  exact hall w i ((decode_eq_ok_iff w i).mp h)

/-- A call of `k` steps, BUSY until then, that ends in a state showing its result: there the machine stays (R38, R264). -/
theorem agrees_of_run {s t : State} {c : Word8} {input : BitSeq} (k : Nat) (hs : s.status ≠ .busy)
    (hk : k ≤ callBlocks c input + 1) (hrun : run k (startCall c input s) = .next t) (hshows : Shows t (call c s.roms input))
    (hbusy : ∀ j, j < k → ∃ v, run j (startCall c input s) = .next v ∧ v.status = .busy)
    (hh : t.host = []) (ht : t.status ≠ .busy) :
    ∃ u t k, hostStart c input s = .next u ∧ k ≤ callBlocks c input + 1 ∧ run k u = .next t ∧
      Shows t (call c s.roms input) ∧ (∀ j, j < k → ∃ v, run j u = .next v ∧ v.status = .busy) ∧
      (∀ j, run (k + j) u = .next t) :=
  ⟨_, t, k, hostStart_notBusy c input hs, hk, hrun, hshows, hbusy, fun j => (run_add j hrun).trans (run_idle j hh ht)⟩

theorem callBlocks_encode (i : Instr) (input : BitSeq) : callBlocks (encode i) input = numBlocks i input := by
  simp [callBlocks]

/-- Settles O46: START of an invalid word has ended at once; a command's call runs through the blocks that encode, then FINISH or the
abort. -/
theorem stepMachineAgreesWithTheCall : Obligations.StepMachineAgreesWithTheCall := by
  intro s c input hs hh
  cases hc : decode c with
  | error e =>
    have hst := startCall_of_invalid s input hc
    refine agrees_of_run 0 hs (Nat.zero_le _) rfl ?_ (fun j hj => absurd hj (Nat.not_lt_zero j)) ?_ ?_
    · rw [call_of_invalid hc, hst]
      exact ⟨rfl, rfl, rfl, rfl, rfl⟩
    · rw [startCall_host, hh]
    · rw [hst]
      exact Status.noConfusion
  | ok i =>
    obtain rfl := encode_of_decode hc
    have hbusy (n : Nat) (hn : n ≤ numBlocks i input) (he : ∀ j, j < n → blockEncodes i s.roms input j) :
        ∀ j, j < n + 1 → ∃ v, run j (startCall (encode i) input s) = .next v ∧ v.status = .busy := fun j hj =>
      ⟨_, run_blocks s input hh i j (by omega) (fun m hm => he m (by omega)), rfl⟩
    obtain hall | ⟨rfl, n, hn, hbefore, habs⟩ := encodes_or_first_absent i s.roms input
    · refine agrees_of_run (numBlocks i input + 1) hs (callBlocks_encode i input ▸ le_rfl) (run_done s input hh i hall) ?_
        (hbusy _ le_rfl hall) hh Status.noConfusion
      rw [call_of_command hc, callOf_of_encodes hall]
      exact ⟨rfl, rfl, rfl, rfl, rfl⟩
    · refine agrees_of_run (n + 1) hs (by rw [callBlocks_encode]; omega) (run_abort s input hh n hn hbefore habs) ?_
        (hbusy n hn.le hbefore) hh Status.noConfusion
      rw [call_of_command hc, callOf_of_absent hn hbefore habs]
      exact ⟨rfl, rfl, rfl, rfl, rfl⟩

/-- The value of an ENC8B10B block fits `EVAL` (R29). -/
theorem evalOf_blockNo_toNat (input : BitSeq) (j : Nat) :
    (evalOf (val (blockNo .enc8b10b input j))).toNat = val (blockNo .enc8b10b input j) := by
  rw [evalOf, BitVec.toNat_ofNat]
  exact Nat.mod_eq_of_lt (val_lt_256 (blockNo_length _ _ _).le)

/-- Settles O50, by `STATUS`: only the two kinds of ERR record an error, and each names the call-level one. -/
theorem errorRegistersNameTheCause : Obligations.ErrorRegistersNameTheCause := by
  intro s h
  obtain ⟨hs, hf⟩ | ⟨hs, i, hst⟩ | ⟨hs, i, hst, -⟩ | ⟨hs, hu | hv⟩ := (inv_iff s).mp h
  · simp [hs, hf.ecode, hf.eval]
  · simp [hs, hst.ecode, hst.eval]
  · simp [hs, hst.ecode, hst.eval]
  · have hval : s.eval.toNat = val (blockNo .enc8b10b s.inp s.blk) := by rw [hu.eval, evalOf_blockNo_toNat]
    have hcall : call s.cmd s.roms s.inp = .unknownSymbol s.eval.toNat := by
      rw [call_of_command hu.command, callOf_of_absent hu.within hu.before hu.absent, hval]
    simp [hs, hu.ecode, hcall, s.eval.isLt]
  · have hcall : call s.cmd s.roms s.inp = .invalidInput :=
      (invalidInputExactlyForInvalidWords s.cmd s.roms s.inp).mpr hv.command
    simp [hs, hv.ecode, hv.eval, hcall]

end Sys2Proof.Machine
end

section
/-! Blocks and bits: the zero fill of a read beyond the input, the blocks that a sequence is cut into, and the bytes it is packed
into. -/

namespace Sys2Proof.Machine

/-- Two reads that adjoin are one read (R15). -/
theorem memRead_add (s : BitSeq) (a m n : Nat) : memRead s a (m + n) = memRead s a m ++ memRead s (a + m) n := by
  simp [memRead, List.range_add, Nat.add_assoc]

/-- A read from the start that covers the sequence is the sequence and then zeros (R55). -/
theorem memRead_zero_add (s : BitSeq) (n : Nat) : memRead s 0 (s.length + n) = s ++ zeros n := by
  rw [memRead_add]
  congr 1
  · refine List.ext_getElem (memRead_length _ _ _) fun k _ hk => ?_
    simp [memRead, hk]
  · simp [memRead, zeros]

/-- The first `n` blocks, put together, are the read of their bits (R52). -/
theorem flatten_map_memRead (s : BitSeq) (w n : Nat) :
    ((List.range n).map fun i => memRead s (w * i) w).flatten = memRead s 0 (w * n) := by
  induction n with
  | zero => simp [memRead]
  | succ n ih =>
    rw [List.range_succ, List.map_append, List.flatten_append, ih, Nat.mul_succ, memRead_add]
    simp

@[simp] theorem chunk_length (s : BitSeq) (w : Nat) : (chunk s w).length = ceilDiv s.length w := by simp [chunk]

/-- A multiple of the width needs no further block (R111 item 5). -/
theorem ceilDiv_mul (q : Nat) {w : Nat} (hw : 0 < w) : ceilDiv (q * w) w = q := by
  rw [ceilDiv, Nat.add_sub_assoc hw, Nat.add_comm, Nat.add_mul_div_right _ _ hw, Nat.div_eq_of_lt (by omega), Nat.zero_add]

/-- A remainder takes one more block (R116). -/
theorem ceilDiv_mul_add (q : Nat) {w r : Nat} (hr : 0 < r) (hrw : r < w) : ceilDiv (q * w + r) w = q + 1 := by
  have hw : 0 < w := hr.trans hrw
  apply le_antisymm
  · rw [ceilDiv_le_iff _ _ _ hw, Nat.succ_mul]; omega
  · rw [Nat.succ_le_iff, lt_ceilDiv_iff _ _ _ hw]; omega

/-- The padding is what the input lacks to fill its blocks (R55, R116). -/
theorem ceilDiv_mul_eq (l : Nat) {w : Nat} (hw : 0 < w) : ceilDiv l w * w = l + padLen l w := by
  rcases Nat.eq_zero_or_pos (l % w) with h0 | hpos
  · obtain ⟨q, rfl⟩ := Nat.dvd_of_mod_eq_zero h0
    simp [Nat.mul_comm w q, ceilDiv_mul q hw, padLen]
  · have hlt := Nat.mod_lt l hw
    have hl : l = l / w * w + l % w := (Nat.div_add_mod' l w).symm
    have hpad : padLen l w = w - l % w := Nat.mod_eq_of_lt (by omega)
    have hcount : ceilDiv l w = l / w + 1 := by rw [hl, ceilDiv_mul_add _ hpos hlt, ← hl]
    rw [hcount, hpad, Nat.succ_mul]
    omega

theorem chunk_flatten (s : BitSeq) {w : Nat} (hw : 0 < w) : (chunk s w).flatten = s ++ zeros (padLen s.length w) := by
  rw [chunk, flatten_map_memRead, Nat.mul_comm, ceilDiv_mul_eq _ hw, memRead_zero_add]

/-- Settles O5: the count is `ceilDiv`, which its two bounds characterise, and the blocks are adjoining reads. -/
theorem chunkPadsOnlyTheLastBlock : Obligations.ChunkPadsOnlyTheLastBlock := by
  intro s w hw
  rw [chunk_length]
  refine ⟨⟨(ceilDiv_le_iff _ _ _ hw).mp le_rfl, fun n => (ceilDiv_le_iff _ _ _ hw).mpr⟩, fun b hb => ?_, chunk_flatten s hw,
    fun i => (lt_ceilDiv_iff _ _ _ hw).mp, fun i hi => ?_, fun hmod => ?_⟩
  · obtain ⟨i, -, rfl⟩ := List.mem_map.mp hb
    exact memRead_length _ _ _
  · exact ((lt_ceilDiv_iff _ _ _ hw).mp hi).le
  · simp [ceilDiv_mul_eq _ hw, padLen, hmod]

/-- A block value is the number of its bits as a bit vector, the first bit the most significant one (R13). -/
theorem val_eq_toNat_ofBoolListBE (b : BitSeq) : val b = (BitVec.ofBoolListBE b).toNat := by
  induction b with
  | nil => rfl
  | cons x xs ih =>
    have hx : bitVal x = x.toNat := by cases x <;> rfl
    rw [val, BitVec.ofBoolListBE, BitVec.toNat_cons', ih, hx, Nat.shiftLeft_eq]

/-- Bit `W - 1 - r` of a block's value is bit `r` of the block in sequence order (R13). -/
theorem testBit_val {b : BitSeq} {r : Nat} (hr : r < b.length) : (val b).testBit (b.length - 1 - r) = b.getD r false := by
  rw [val_eq_toNat_ofBoolListBE, BitVec.testBit_toNat, BitVec.getLsbD_ofBoolListBE]
  simp [show b.length - 1 - r < b.length by omega, show b.length - 1 - (b.length - 1 - r) = r by omega]

/-- Byte `q` of a packed sequence is the value of block `q` at width 8 (R61). -/
theorem packBytes_getElem? {s : BitSeq} {q : Nat} (hq : 8 * q < s.length) :
    (packBytes s)[q]? = some (BitVec.ofNat 8 (val (memRead s (8 * q) 8))) := by
  have hlt : q < ceilDiv s.length 8 := (lt_ceilDiv_iff _ _ _ (by decide)).mpr (by omega)
  simp [packBytes, hlt]

/-- Settles O7: byte `q` is the value of block `q`, and bit `r` of that block is the sequence's bit `8q + r`. -/
theorem packedBytesKeepBitOrder : Obligations.PackedBytesKeepBitOrder := by
  intro s q r hr hlt
  have hbit := testBit_val (b := memRead s (8 * q) 8) (by simpa using hr)
  rw [memRead_length, List.getD_eq_getElem?_getD, memRead_getElem? _ _ _ _ hr] at hbit
  rw [packBytes_getElem? (by omega), Option.map_some, BitVec.getLsbD_ofNat, hbit]
  simp [Nat.lt_succ_of_le (Nat.sub_le 7 r), hlt]

end Sys2Proof.Machine
end

section
/-! What the host can read of a result, by `STATUS`. -/

namespace Sys2Proof.Machine

/-- In DONE the registers hold the call-level result of `CMD` on `IN` (R60). -/
theorem Inv.call_of_done {s : State} (h : Inv s) (hs : s.status = .done) : call s.cmd s.roms s.inp = .ok s.out s.lbl := by
  obtain ⟨i, hst, hn⟩ : ∃ i, Staged i s ∧ s.blk = numBlocks i s.inp := by simpa [Inv, hs] using h
  rw [call_of_command hst.command, callOf_of_encodes (hn ▸ hst.encodes), hst.out, hst.lbl, hn]

/-- Neither before a call nor after an error do `OUT` and `LBL` hold anything (R40, R60, R214). -/
theorem Inv.buffers_empty {s : State} (h : Inv s) (hb : s.status ≠ .busy) (hd : s.status ≠ .done) : s.out = [] ∧ s.lbl = [] := by
  obtain ⟨-, hf⟩ | ⟨hs, -⟩ | ⟨hs, -⟩ | ⟨-, hu | hv⟩ := (inv_iff s).mp h
  · exact ⟨hf.out, hf.lbl⟩
  · exact absurd hs hb
  · exact absurd hs hd
  · exact ⟨hu.out, hu.lbl⟩
  · exact ⟨hv.out, hv.lbl⟩

/-- Settles O49: an answered read of a buffer shows it outside BUSY; then DONE holds the whole result, any other `STATUS` nothing. -/
theorem hostNeverSeesAPartialResult : Obligations.HostNeverSeesAPartialResult := by
  intro s o l h ho hl
  by_cases hb : s.status = .busy
  · cases (hostRead_out_busy hb).symm.trans ho
  · cases (hostRead_out_notBusy hb).symm.trans ho
    cases (hostRead_lbl_notBusy hb).symm.trans hl
    by_cases hd : s.status = .done
    · exact .inl ⟨hd, h.call_of_done hd⟩
    · exact .inr ⟨hd, h.buffers_empty hb hd⟩

end Sys2Proof.Machine
end

section
/-! The decoder and the words of the table: a word decodes to a command exactly when it is that command's word. -/

namespace Sys2Proof.Machine

theorem decode_eq_ok_iff_eq_encode (w : Word8) (i : Instr) : decode w = .ok i ↔ w = encode i :=
  ⟨fun h => (encode_of_decode h).symm, fun h => h ▸ decode_encode i⟩

/-- `RSV` adds nothing to a command's word; `MOD` stands above the three bits of `SCHEME` (R80, R81). -/
theorem encode_toNat (i : Instr) : (encode i).toNat = 8 * i.fields.mod.toNat + i.fields.scheme.toNat := by
  cases i <;> rfl

/-- Settles O1: each of the nine words is the encoding of its row's command. -/
theorem tableWordsDecodeToTheirCommands : Obligations.TableWordsDecodeToTheirCommands :=
  ⟨decode_encode .chunk4, decode_encode .chunk8, decode_encode .chunk64, decode_encode .enc4b5b, decode_encode .enc8b10b,
    decode_encode .frame66D, decode_encode .frame66C, decode_encode .manch, decode_encode .manchVfy⟩

/-- Settles O2: a command's word is `8 * MOD + SCHEME`, whose quotients and remainders are its fields; the words that do not decode are
the 256 less the 9 that do. -/
theorem decoderSelectsBySchemeAndModifier : Obligations.DecoderSelectsBySchemeAndModifier := by
  have hnine : ((List.range 256).filter fun n => (decode (BitVec.ofNat 8 n)).isOk).length = 9 := by decide +kernel
  refine ⟨fun w i => ?_, hnine, ?_⟩
  · rw [decode_eq_ok_iff_eq_encode, ← BitVec.toNat_inj, encode_toNat]
    cases i <;> simp [Instr.fields] <;> omega
  · have hsplit := List.length_eq_length_filter_add (l := List.range 256) fun n => (decode (BitVec.ofNat 8 n)).isOk
    rw [List.length_range, hnine] at hsplit
    omega

/-- Settles O3: the byte decodes by itself and the rest is given back; the converse is `encode_of_decode`. -/
theorem decodeAndEncodeAgree : Obligations.DecodeAndEncodeAgree :=
  ⟨fun i rest => by rw [decodeBytes, decode_encode], fun _ _ => encode_of_decode⟩

end Sys2Proof.Machine
end

section
/-! Call lines: reading takes a mnemonic and its space off the line, and reads bits back from their text. -/

namespace Sys2Proof.Machine

/-- Of the heads of call lines only the mnemonic's own, its space included, begins such a line (R81, R88). -/
theorem readHead_mnemonic (i : Instr) (rest : List Char) :
    readHead ((mnemonic i).toList ++ ' ' :: rest) = some (encode i, rest) := by
  cases i <;> rfl

theorem readBits_map_digit (s : BitSeq) : readBits (s.map fun b => if b then '1' else '0') = some s := by
  induction s with
  | nil => rfl
  | cons b bs ih => cases b <;> simp [readBits, ih]

/-- The text of bits starts with a digit, hence is read neither as `-` nor as hexadecimal; no bits are written `-` (R88). -/
theorem readInput_bitsText (s : BitSeq) : readInput (bitsText s) = some s := by
  cases s with
  | nil => rfl
  | cons b bs =>
    have hbits := readBits_map_digit (b :: bs)
    cases b <;> exact hbits

/-- Settles O52: the head of the line is the mnemonic and its space, the rest is the text of the bits. -/
theorem callLineReadsBack : Obligations.CallLineReadsBack := by
  intro i s
  have hline : (mnemonic i ++ " " ++ String.ofList (bitsText s)).toList = (mnemonic i).toList ++ ' ' :: bitsText s := by
    simp
  simp only [readCall, hline, readHead_mnemonic, readInput_bitsText, Option.map_some]

end Sys2Proof.Machine
end

section
/-! The chunker: the padding count, the CHUNK commands, and what the calls of all commands owe to the blocks of their input: padding
the input does not change its blocks, and an input cut at a block boundary has the blocks of its parts. -/

namespace Sys2Proof.Machine

/-! ## The padding count (R55, R116) -/

theorem padLen_lt (l : Nat) {w : Nat} (hw : 0 < w) : padLen l w < w := Nat.mod_lt _ hw

/-- A multiple of the width needs no padding (R116). -/
theorem padLen_mul (q w : Nat) : padLen (q * w) w = 0 := by simp [padLen]

/-- A remainder is padded to the full width (R116). -/
theorem padLen_mul_add (q : Nat) {w r : Nat} (hr : 0 < r) (hrw : r < w) : padLen (q * w + r) w = w - r := by
  have hmod : (q * w + r) % w = r := by rw [Nat.mul_add_mod', Nat.mod_eq_of_lt hrw]
  rw [padLen, hmod, Nat.mod_eq_of_lt (by omega)]

/-- Settles O6: the counts at a multiple, those at a remainder, and their sum. -/
theorem blockAndPaddingCounts : Obligations.BlockAndPaddingCounts := fun w hw =>
  ⟨fun q => ⟨ceilDiv_mul q hw, padLen_mul q w⟩, fun q _ hr hrw => ⟨ceilDiv_mul_add q hr hrw, padLen_mul_add q hr hrw⟩,
    fun l => ⟨ceilDiv_mul_eq l hw, padLen_lt l hw⟩⟩

/-! ## The CHUNK commands (R112 to R114) -/

/-- The CHUNK command of each width copies its blocks, labels none and raises nothing. -/
theorem chunkCommand_blocks {i : Instr} {w : Nat} (h : (i, w) ∈ [(Instr.chunk4, 4), (Instr.chunk8, 8), (Instr.chunk64, 64)]) :
    blockWidth i = w ∧ (∀ r b, blockOut r b i = b) ∧ (∀ b, blockLabels b i = []) ∧
    (∀ r input j, blockEncodes i r input j) := by
  simp only [List.mem_cons, Prod.mk.injEq, List.not_mem_nil, or_false] at h
  obtain ⟨rfl, rfl⟩ | ⟨rfl, rfl⟩ | ⟨rfl, rfl⟩ := h
  all_goals exact ⟨rfl, fun _ _ => rfl, fun _ => rfl, fun _ _ _ => Instr.noConfusion⟩

/-- A command that copies its blocks has staged, at `NB`, the input and its padding zeros (R55, R111). -/
theorem stagedOut_of_copies {i : Instr} {r : Roms} (h : ∀ b, blockOut r b i = b) (input : BitSeq) :
    stagedOut i r input (numBlocks i input) = input ++ zeros (padLen input.length (blockWidth i)) := by
  rw [← flatMap_chunk_blockOut, ← chunk_flatten input (blockWidth_pos i)]
  simp [h, List.flatMap_def]

theorem stagedLabels_of_none {i : Instr} (h : ∀ b, blockLabels b i = []) (input : BitSeq) (n : Nat) :
    stagedLabels i input n = [] := by simp [stagedLabels, h]

/-- Settles O20: the block step by `exec_encodes`, the whole call by `run_done`. -/
theorem chunkCommandsCopyThePaddedInput : Obligations.ChunkCommandsCopyThePaddedInput := by
  intro i w hi
  obtain ⟨rfl, hout, hlbl, henc⟩ := chunkCommand_blocks hi
  refine ⟨fun s hb hlt => ?_, fun s input _ hh => ?_⟩
  · rw [exec_encodes hb hlt (henc _ _ _), hout, hlbl, List.append_nil, blockNo, Nat.mul_comm]
    rfl
  · have hrun := run_done s input hh i fun j _ => henc s.roms input j
    rw [stagedOut_of_copies (hout s.roms), stagedLabels_of_none hlbl] at hrun
    exact hrun

/-! ## Encoding a chunked input (R119) -/

/-- Zeros at the end of the input read as the zero fill beyond it (R15). -/
theorem memRead_append_zeros (s : BitSeq) (m a n : Nat) : memRead (s ++ zeros m) a n = memRead s a n := by
  refine List.map_congr_left fun k _ => ?_
  rcases Nat.lt_or_ge (a + k) s.length with h | h
  · simp [List.getElem?_append_left h]
  · rw [List.getD_append_right _ _ _ _ h, List.getD_eq_default _ _ h]
    simp [zeros]

/-- The padded input has the blocks of the input (R111). -/
theorem chunk_padded (s : BitSeq) {w : Nat} (hw : 0 < w) : chunk (s ++ zeros (padLen s.length w)) w = chunk s w := by
  have hcount : ceilDiv (s.length + padLen s.length w) w = ceilDiv s.length w := by
    rw [← ceilDiv_mul_eq _ hw, ceilDiv_mul _ hw]
  simp [chunk, hcount, memRead_append_zeros]

/-- A call of a command other than ENC8B10B answers `Ok` with what its blocks give, in order (R36, R212). -/
theorem callOf_of_ne_enc8b10b {i : Instr} (hi : i ≠ .enc8b10b) (r : Roms) (s : BitSeq) : callOf r s i =
    .ok ((chunk s (blockWidth i)).flatMap fun b => blockOut r b i) ((chunk s (blockWidth i)).flatMap fun b => blockLabels b i) := by
  rw [callOf_of_encodes fun _ _ h => absurd h hi, flatMap_chunk_blockOut, flatMap_chunk_blockLabels]

/-- A call reads of its input only the blocks (R36, R52). -/
theorem callOf_congr_chunk {i : Instr} {s t : BitSeq} (r : Roms) (h : chunk s (blockWidth i) = chunk t (blockWidth i)) :
    callOf r s i = callOf r t i := by
  by_cases hi : i = .enc8b10b
  · subst hi
    exact congrArg (fun bs => enc8b10bLoop r bs [] []) h
  · rw [callOf_of_ne_enc8b10b hi, callOf_of_ne_enc8b10b hi, h]

/-- Encoding the padded input is encoding the input. -/
theorem callOf_padded (r : Roms) (s : BitSeq) (i : Instr) :
    callOf r (s ++ zeros (padLen s.length (blockWidth i))) i = callOf r s i :=
  callOf_congr_chunk r (chunk_padded s (blockWidth_pos i))

theorem callChunk_eq_padded (s : BitSeq) {w : Nat} (hw : 0 < w) : callChunk w s = .ok (s ++ zeros (padLen s.length w)) [] := by
  rw [callChunk, chunk_flatten s hw]

/-- Settles O40: the CHUNK command answers the input padded at the width of the encoding command. -/
theorem encodingTheChunkedInputChangesNothing : Obligations.EncodingTheChunkedInputChangesNothing := by
  intro c i hci r s out lbl h
  have hc : callOf r s c = callChunk (blockWidth i) s := by
    simp only [List.mem_cons, Prod.mk.injEq, List.not_mem_nil, or_false] at hci
    obtain ⟨rfl, rfl⟩ | ⟨rfl, rfl⟩ | ⟨rfl, rfl⟩ | ⟨rfl, rfl⟩ | ⟨rfl, rfl⟩ | ⟨rfl, rfl⟩ | ⟨rfl, rfl⟩ := hci
    all_goals rfl
  rw [hc, callChunk_eq_padded s (blockWidth_pos i)] at h
  cases h
  exact callOf_padded r s i

/-! ## Splitting an input at a block boundary (R260) -/

/-- A read within the first part. -/
theorem memRead_append_left {s : BitSeq} (t : BitSeq) {a n : Nat} (h : a + n ≤ s.length) :
    memRead (s ++ t) a n = memRead s a n :=
  List.map_congr_left fun k hk => List.getD_append _ _ _ _ (by have := List.mem_range.mp hk; omega)

/-- A read within the second part. -/
theorem memRead_append_right (s t : BitSeq) (a n : Nat) : memRead (s ++ t) (s.length + a) n = memRead t a n :=
  List.map_congr_left fun k _ => by rw [List.getD_append_right _ _ _ _ (by omega)]; congr 1; omega

/-- A multiple of the width adds its own blocks to those of the rest. -/
theorem ceilDiv_mul_add_eq_add (q l : Nat) {w : Nat} (hw : 0 < w) : ceilDiv (q * w + l) w = q + ceilDiv l w := by
  rw [ceilDiv, show q * w + l + w - 1 = l + w - 1 + q * w by omega, Nat.add_mul_div_right _ _ hw, ceilDiv, Nat.add_comm]

/-- An input cut at a multiple of the width has the blocks of its first part and then those of its second (R111). -/
theorem chunk_append {s : BitSeq} (t : BitSeq) {w : Nat} (hw : 0 < w) (hs : s.length % w = 0) :
    chunk (s ++ t) w = chunk s w ++ chunk t w := by
  obtain ⟨q, hq⟩ := Nat.dvd_of_mod_eq_zero hs
  have hcs : ceilDiv s.length w = q := by rw [hq, Nat.mul_comm, ceilDiv_mul q hw]
  have hcst : ceilDiv (s ++ t).length w = q + ceilDiv t.length w := by
    rw [List.length_append, hq, Nat.mul_comm, ceilDiv_mul_add_eq_add _ _ hw]
  rw [chunk, hcst, List.range_add, List.map_append, List.map_map, chunk, hcs, chunk]
  congr 1
  · refine List.map_congr_left fun i hi => memRead_append_left t ?_
    rw [hq, ← Nat.mul_succ]
    exact Nat.mul_le_mul_left w (List.mem_range.mp hi)
  · refine List.map_congr_left fun i _ => ?_
    rw [Function.comp_apply, Nat.mul_add, ← hq, memRead_append_right]

/-- The result of two calls in a row taken as one call: what they give concatenated, or the first error. -/
def CallResult.andThen : CallResult → CallResult → CallResult
  | .ok o l, .ok p m => .ok (o ++ p) (l ++ m)
  | .ok _ _, e => e
  | e, _ => e

/-- What the loop of ENC8B10B has staged stands before what it still gives (R154). -/
theorem enc8b10bLoop_eq_andThen (r : Roms) (bs : List BitSeq) (out : BitSeq) (lbl : List Label) :
    enc8b10bLoop r bs out lbl = CallResult.andThen (.ok out lbl) (enc8b10bLoop r bs [] []) := by
  induction bs generalizing out lbl with
  | nil => simp [enc8b10bLoop, CallResult.andThen]
  | cons b bs ih =>
    by_cases hb : present r (val b) = true
    · simp only [enc8b10bLoop, hb, if_true, List.nil_append]
      rw [ih (out ++ _), ih (rom810 r (val b))]
      cases enc8b10bLoop r bs [] [] <;> simp [CallResult.andThen]
    · simp [enc8b10bLoop, hb, CallResult.andThen]

/-- The loop over two lists of blocks is the loop over the first and then that over the second (R154, R155). -/
theorem enc8b10bLoop_append (r : Roms) (as bs : List BitSeq) (out : BitSeq) (lbl : List Label) :
    enc8b10bLoop r (as ++ bs) out lbl = (enc8b10bLoop r as out lbl).andThen (enc8b10bLoop r bs [] []) := by
  induction as generalizing out lbl with
  | nil => exact enc8b10bLoop_eq_andThen r bs out lbl
  | cons a as ih =>
    by_cases ha : present r (val a) = true
    · simp [enc8b10bLoop, ha, ih]
    · simp [enc8b10bLoop, ha, CallResult.andThen]

/-- A call on an input cut at a block boundary is the two calls in a row (R260). -/
theorem callOf_append {i : Instr} (r : Roms) {s : BitSeq} (t : BitSeq) (hs : s.length % blockWidth i = 0) :
    callOf r (s ++ t) i = (callOf r s i).andThen (callOf r t i) := by
  have hchunk := chunk_append t (blockWidth_pos i) hs
  by_cases hi : i = .enc8b10b
  · subst hi
    exact (congrArg (fun bs => enc8b10bLoop r bs [] []) hchunk).trans (enc8b10bLoop_append r _ _ [] [])
  · rw [callOf_of_ne_enc8b10b hi, callOf_of_ne_enc8b10b hi, callOf_of_ne_enc8b10b hi, hchunk, List.flatMap_append,
      List.flatMap_append]
    rfl

/-- Settles O41: the three clauses are the cases of `CallResult.andThen`. -/
theorem splittingAtABlockBoundaryIsHarmless : Obligations.SplittingAtABlockBoundaryIsHarmless := by
  intro i r s t hs
  rw [callOf_append r t hs]
  refine ⟨fun o l p m ho hp => ?_, fun v hv => ?_, fun o l v ho hv => ?_⟩
  · rw [ho, hp]; rfl
  · rw [hv]; rfl
  · rw [ho, hv]; rfl

end Sys2Proof.Machine
end

section
/-! Block values and their bits: a block and its value determine each other, so the values of an input's blocks determine the padded
input. -/

namespace Sys2Proof.Machine

/-- Bit `k` of `bits_W(v)` is bit `W - 1 - k` of `v` (R13). -/
theorem bitsOf_getElem? {w k : Nat} (v : Nat) (hk : k < w) : (bitsOf w v)[k]? = some (v.testBit (w - 1 - k)) := by
  simp [bitsOf, hk, Nat.testBit_eq_decide_div_mod_eq, beq_eq_decide]

/-- A block is the bits of its value. -/
theorem bitsOf_val (b : BitSeq) : bitsOf b.length (val b) = b := by
  refine List.ext_getElem (bitsOf_length _ _) fun k hk hkb => ?_
  have hbit := bitsOf_getElem? (val b) hkb
  rw [testBit_val hkb, List.getD_eq_getElem _ _ hkb, List.getElem?_eq_getElem hk] at hbit
  exact Option.some.inj hbit

/-- A number below `2^W` is the value of its `W` bits. -/
theorem val_bitsOf {w v : Nat} (hv : v < 2 ^ w) : val (bitsOf w v) = v := by
  have hval : val (bitsOf w v) < 2 ^ w := by simpa using val_lt (bitsOf w v)
  refine Nat.eq_of_testBit_eq fun j => ?_
  rcases Nat.lt_or_ge j w with hj | hj
  · have hbit := testBit_val (b := bitsOf w v) (r := w - 1 - j) (by rw [bitsOf_length]; omega)
    rwa [bitsOf_length, List.getD_eq_getElem?_getD, bitsOf_getElem? v (by omega), Option.getD_some,
      show w - 1 - (w - 1 - j) = j by omega] at hbit
  · have hpow := Nat.pow_le_pow_right Nat.two_pos hj
    rw [Nat.testBit_lt_two_pow (hval.trans_le hpow), Nat.testBit_lt_two_pow (hv.trans_le hpow)]

theorem length_of_mem_chunk {s b : BitSeq} {w : Nat} (h : b ∈ chunk s w) : b.length = w := by
  obtain ⟨i, -, rfl⟩ := List.mem_map.mp h
  exact memRead_length _ _ _

/-- The blocks of an input are the bits of their values. -/
theorem map_bitsOf_map_val_chunk (s : BitSeq) (w : Nat) : ((chunk s w).map val).map (bitsOf w) = chunk s w := by
  rw [List.map_map]
  refine (List.map_congr_left fun b hb => ?_).trans (List.map_id _)
  have hb' := bitsOf_val b
  rwa [length_of_mem_chunk hb] at hb'

/-- Inputs whose blocks have the same values are equal once padded (R111). -/
theorem padded_eq_of_map_val_chunk_eq {s t : BitSeq} {w : Nat} (hw : 0 < w)
    (h : (chunk s w).map val = (chunk t w).map val) :
    s ++ zeros (padLen s.length w) = t ++ zeros (padLen t.length w) := by
  rw [← chunk_flatten s hw, ← chunk_flatten t hw, ← map_bitsOf_map_val_chunk s, h, map_bitsOf_map_val_chunk]

/-- Unit `i` of an output made of units of `w` elements stands at index `w * i` (R53). -/
theorem take_drop_units {α : Type} (f : Nat → List α) {w n i : Nat} (hf : ∀ j, (f j).length = w) (hi : i < n) :
    (((List.range n).flatMap f).drop (w * i)).take w = f i := by
  refine List.ext_getElem? fun k => ?_
  rcases Nat.lt_or_ge k w with hk | hk
  · rw [List.getElem?_take_of_lt hk, List.getElem?_drop, units_getElem? f w n (fun j _ => hf j) i k hi hk]
  · rw [List.getElem?_take_eq_none hk, List.getElem?_eq_none (by rwa [hf])]

end Sys2Proof.Machine
end

section
/-! The 4B/5B codec: its block step and its call for every table, and what of the input its output determines. -/

namespace Sys2Proof.Machine

/-- Only ENC8B10B can meet a block without an entry (R212). -/
theorem blockEncodes_of_ne_enc8b10b {i : Instr} (hi : i ≠ .enc8b10b) (r : Roms) (input : BitSeq) (j : Nat) :
    blockEncodes i r input j := fun h => absurd h hi

theorem blockNo_enc4b5b (input : BitSeq) (j : Nat) : blockNo .enc4b5b input j = memRead input (4 * j) 4 := by
  rw [blockNo, Nat.mul_comm]; rfl

theorem stagedOut_enc4b5b (r : Roms) (input : BitSeq) (n : Nat) : stagedOut .enc4b5b r input n =
    (List.range n).flatMap fun j => rom45 r (val (memRead input (4 * j) 4)) := by
  simp [stagedOut, blockOut, blockNo_enc4b5b]

theorem stagedLabels_enc4b5b (input : BitSeq) (n : Nat) : stagedLabels .enc4b5b input n =
    (List.range n).map fun j => val (memRead input (4 * j) 4) := by
  simp [stagedLabels, blockLabels, blockNo_enc4b5b, ← List.map_eq_flatMap]

/-- Settles O21: the block step by `exec_encodes`, the whole call by `run_done`. -/
theorem enc4b5bEncodesEveryBlock : Obligations.Enc4b5bEncodesEveryBlock := by
  have henc := blockEncodes_of_ne_enc8b10b (i := .enc4b5b) Instr.noConfusion
  refine ⟨fun s hb hlt => ?_, fun s input _ hh => ?_⟩
  · rw [exec_encodes (i := .enc4b5b) hb hlt (henc _ _ _), blockNo_enc4b5b]
    rfl
  · have hrun := run_done s input hh .enc4b5b fun j _ => henc s.roms input j
    rw [stagedOut_enc4b5b, stagedLabels_enc4b5b] at hrun
    exact hrun

/-- The result of a call of ENC4B5B, unit by unit and label by label (R136). -/
theorem callOf_enc4b5b (r : Roms) (s : BitSeq) : callOf r s .enc4b5b =
    .ok ((List.range (ceilDiv s.length 4)).flatMap fun j => rom45 r (val (memRead s (4 * j) 4)))
      ((List.range (ceilDiv s.length 4)).map fun j => val (memRead s (4 * j) 4)) := by
  simp [callOf, callEnc4b5b, chunk, List.flatMap_map]

/-- What an answer of ENC4B5B is made of: its labels are the block values, and its output has the codeword of each label in that label's
place (R136, R137). -/
theorem enc4b5b_answer {r : Roms} {s out : BitSeq} {lbl : List Label} (h : callOf r s .enc4b5b = .ok out lbl) :
    lbl = (chunk s 4).map val ∧ out.length = 5 * lbl.length ∧
    ∀ i v, lbl[i]? = some v → (out.drop (5 * i)).take 5 = rom45 r v := by
  rw [callOf_enc4b5b] at h
  cases h
  refine ⟨by simp [chunk], ?_, fun i v hv => ?_⟩
  · rw [units_length _ 5 _ fun _ _ => rom45_length _ _, List.length_map, List.length_range]
  · obtain ⟨hi, rfl⟩ := List.getElem?_eq_some_iff.mp hv
    rw [List.getElem_map, List.getElem_range]
    exact take_drop_units _ (fun _ => rom45_length _ _) (by simpa using hi)

/-- An admissible `T45` has no codeword twice (R135 b). -/
theorem rom45_injOn {r : Roms} (hr : T45Admissible r) {u v : Nat} (hu : u < 16) (hv : v < 16) (h : rom45 r u = rom45 r v) :
    u = v := by
  obtain ⟨hinj, -⟩ := hr
  have hword : t45Word r u = t45Word r v := by
    have hval := congrArg val h
    rw [rom45, rom45, val_bitsOf (BitVec.isLt _), val_bitsOf (BitVec.isLt _)] at hval
    exact BitVec.eq_of_toNat_eq hval
  exact congrArg Fin.val (hinj ⟨u, hu⟩ ⟨v, hv⟩ hword)

/-- The labels of ENC4B5B are 4-bit values (R131). -/
theorem enc4b5b_label_lt {r : Roms} {s out : BitSeq} {lbl : List Label} (h : callOf r s .enc4b5b = .ok out lbl) {v : Label}
    (hv : v ∈ lbl) : v < 16 := by
  obtain ⟨rfl, -⟩ := enc4b5b_answer h
  obtain ⟨b, hb, rfl⟩ := List.mem_map.mp hv
  simpa [length_of_mem_chunk hb] using val_lt b

/-- Under an admissible table equal outputs of ENC4B5B come with equal labels: the labels are as many as the codewords, and each is
determined by its codeword. -/
theorem enc4b5b_labels_eq_of_out_eq {r : Roms} (hr : T45Admissible r) {s t out : BitSeq} {l m : List Label}
    (hs : callOf r s .enc4b5b = .ok out l) (ht : callOf r t .enc4b5b = .ok out m) : l = m := by
  obtain ⟨-, hlen, hcode⟩ := enc4b5b_answer hs
  obtain ⟨-, hlen', hcode'⟩ := enc4b5b_answer ht
  refine List.ext_getElem (by omega) fun i hil him => ?_
  have heq : rom45 r l[i] = rom45 r m[i] :=
    (hcode i _ (List.getElem?_eq_getElem hil)).symm.trans (hcode' i _ (List.getElem?_eq_getElem him))
  exact rom45_injOn hr (enc4b5b_label_lt hs (List.getElem_mem hil)) (enc4b5b_label_lt ht (List.getElem_mem him)) heq

/-- Settles O33: lengths and places by `enc4b5b_answer`; equal outputs give equal labels, which are the block values of the padded
input; and a bit gives the same as itself with its padding. -/
theorem enc4b5bOutputDeterminesThePaddedInput : Obligations.Enc4b5bOutputDeterminesThePaddedInput := by
  refine ⟨fun r s out lbl h => ?_, fun r s => ⟨_, _, callOf_enc4b5b r s⟩, fun r s t out l m hr hs ht => ?_, fun r => ?_⟩
  · obtain ⟨hlbl, hout, hcode⟩ := enc4b5b_answer h
    have hlen : lbl.length = ceilDiv s.length 4 := by rw [hlbl, List.length_map, chunk_length]
    exact ⟨hlen ▸ hout, hlen, hcode⟩
  · obtain ⟨hl, -⟩ := enc4b5b_answer hs
    obtain ⟨hm, -⟩ := enc4b5b_answer ht
    refine padded_eq_of_map_val_chunk_eq (by decide) ?_
    rw [← hl, ← hm, enc4b5b_labels_eq_of_out_eq hr hs ht]
  · exact ⟨[true] ++ zeros 3, [true], by decide, callOf_padded r [true] .enc4b5b⟩

end Sys2Proof.Machine
end

section
/-! The default tables, and the text of a label. -/

namespace Sys2Proof.Machine

theorem t45_defaultRoms_injective (u v : Fin 16) (h : t45Word defaultRoms u = t45Word defaultRoms v) : u = v := by
  revert u v
  decide +kernel

/-- The one word of the default `T810` that is ever read (R153, log 6). -/
theorem t810Word_defaultRoms : t810Word defaultRoms 0xAB = 0b1010101100 := by
  rw [t810Word, rom_getD _ _ _ (by decide)]
  exact Vector.getElem_set_self _

theorem defaultRoms_admissible : RomsAdmissible defaultRoms :=
  ⟨⟨t45_defaultRoms_injective, rfl, rfl, rfl⟩, present_defaultRoms 0xAB (by decide), t810Word_defaultRoms,
    present_defaultRoms 0x00 (by decide)⟩

/-- Settles O8: the constraints, the words of `T45` one by one, and the one entry of `T810`. -/
theorem defaultTablesAreAdmissible : Obligations.DefaultTablesAreAdmissible := by
  refine ⟨defaultRoms_admissible, by decide +kernel, fun v hv => ?_, ?_⟩
  · rw [present_defaultRoms v hv, decide_eq_true_iff]
  · rw [t810Word_defaultRoms]
    rfl

/-- A hexadecimal digit reads back as its value (R138). -/
theorem hexValue_hexDigit : ∀ v, v < 16 → hexValue (hexDigit v) = some v := by decide

/-- Settles O53: one digit by `hexValue_hexDigit`, two by the quotient and the remainder by 16. -/
theorem labelTextIsUpperCaseHexadecimal : Obligations.LabelTextIsUpperCaseHexadecimal := by
  refine ⟨fun v hv => ⟨rfl, hexValue_hexDigit v hv⟩, fun v hv => ⟨v / 16, v % 16, rfl, ?_, ?_, ?_⟩, rfl, rfl⟩
  · omega
  · omega
  · omega

end Sys2Proof.Machine
end

section
/-! The 8B/10B codec: its block step with the abort, its call by whether a block has no entry, and its call on some inputs under every
admissible table. -/

namespace Sys2Proof.Machine

/-! ## The step machine (R154, R214) -/

theorem blockNo_enc8b10b (input : BitSeq) (j : Nat) : blockNo .enc8b10b input j = memRead input (8 * j) 8 := by
  rw [blockNo, Nat.mul_comm]; rfl

theorem blockEncodes_enc8b10b (r : Roms) (input : BitSeq) (j : Nat) :
    blockEncodes .enc8b10b r input j ↔ present r (val (memRead input (8 * j) 8)) = true := by
  simp [blockEncodes, blockNo_enc8b10b]

theorem stagedOut_enc8b10b (r : Roms) (input : BitSeq) (n : Nat) : stagedOut .enc8b10b r input n =
    (List.range n).flatMap fun j => rom810 r (val (memRead input (8 * j) 8)) := by
  simp [stagedOut, blockOut, blockNo_enc8b10b]

theorem stagedLabels_enc8b10b (input : BitSeq) (n : Nat) : stagedLabels .enc8b10b input n =
    (List.range n).map fun j => val (memRead input (8 * j) 8) := by
  simp [stagedLabels, blockLabels, blockNo_enc8b10b, ← List.map_eq_flatMap]

/-- Settles O22: the block step by `exec_encodes` or `blockStep_absent`, the whole call by `run_done` or `run_abort`. -/
theorem enc8b10bEncodesOrAborts : Obligations.Enc8b10bEncodesOrAborts := by
  refine ⟨fun s hb hlt hp => ?_, fun s hb hlt ha => ?_, fun s input _ hh hp => ?_, fun s input n _ hh hn hp ha => ?_⟩
  · rw [exec_encodes (i := .enc8b10b) hb hlt ((blockEncodes_enc8b10b _ _ _).mpr hp), blockNo_enc8b10b]
    rfl
  · rw [← blockNo_enc8b10b] at ha ⊢
    rw [exec_block (i := .enc8b10b) hb hlt, blockStep_absent s ha]
    rfl
  · have hrun := run_done s input hh .enc8b10b fun j hj => (blockEncodes_enc8b10b _ _ _).mpr (hp j hj)
    rw [stagedOut_enc8b10b, stagedLabels_enc8b10b] at hrun
    exact hrun
  · rw [← blockNo_enc8b10b] at ha ⊢
    exact run_abort s input hh n hn (fun j hj => (blockEncodes_enc8b10b _ _ _).mpr (hp j hj)) ha

/-! ## The call (R154, R155) -/

/-- A call of ENC8B10B all of whose block values have entries (R154). -/
theorem callOf_enc8b10b_of_present {r : Roms} {s : BitSeq}
    (h : ∀ j, j < ceilDiv s.length 8 → present r (val (memRead s (8 * j) 8)) = true) : callOf r s .enc8b10b =
    .ok ((List.range (ceilDiv s.length 8)).flatMap fun j => rom810 r (val (memRead s (8 * j) 8)))
      ((List.range (ceilDiv s.length 8)).map fun j => val (memRead s (8 * j) 8)) := by
  rw [callOf_of_encodes fun j hj => (blockEncodes_enc8b10b _ _ _).mpr (h j hj), stagedOut_enc8b10b, stagedLabels_enc8b10b]
  rfl

/-- A call of ENC8B10B whose first block without an entry is block `n` (R155). -/
theorem callOf_enc8b10b_of_absent {r : Roms} {s : BitSeq} {n : Nat} (hn : n < ceilDiv s.length 8)
    (h : ∀ j, j < n → present r (val (memRead s (8 * j) 8)) = true) (ha : present r (val (memRead s (8 * n) 8)) = false) :
    callOf r s .enc8b10b = .unknownSymbol (val (memRead s (8 * n) 8)) := by
  rw [← blockNo_enc8b10b] at ha ⊢
  exact callOf_of_absent hn (fun j hj => (blockEncodes_enc8b10b _ _ _).mpr (h j hj)) ha

/-- The hypotheses of `callOf_enc8b10b_of_present` or those of `callOf_enc8b10b_of_absent` hold. -/
theorem present_or_first_absent (r : Roms) (s : BitSeq) :
    (∀ j, j < ceilDiv s.length 8 → present r (val (memRead s (8 * j) 8)) = true) ∨
    ∃ n, n < ceilDiv s.length 8 ∧ (∀ j, j < n → present r (val (memRead s (8 * j) 8)) = true) ∧
      present r (val (memRead s (8 * n) 8)) = false := by
  have hcases := encodes_or_first_absent .enc8b10b r s
  simp only [blockEncodes_enc8b10b, blockNo_enc8b10b, true_and] at hcases
  exact hcases

/-- ENC8B10B answers `Ok` exactly when all its block values have entries (R156). -/
theorem enc8b10b_ok_iff (r : Roms) (s : BitSeq) : (∃ out lbl, callOf r s .enc8b10b = .ok out lbl) ↔
    ∀ j, j < ceilDiv s.length 8 → present r (val (memRead s (8 * j) 8)) = true := by
  refine ⟨fun ⟨out, lbl, hok⟩ => ?_, fun h => ⟨_, _, callOf_enc8b10b_of_present h⟩⟩
  obtain h | ⟨n, hn, h, ha⟩ := present_or_first_absent r s
  · exact h
  · cases hok.symm.trans (callOf_enc8b10b_of_absent hn h ha)

/-- A property of all chunks is one of the reads they are (R110). -/
theorem forall_mem_chunk_iff (p : BitSeq → Prop) (s : BitSeq) (w : Nat) :
    (∀ b ∈ chunk s w, p b) ↔ ∀ j, j < ceilDiv s.length w → p (memRead s (w * j) w) := by simp [chunk]

/-- Settles O34: an `Ok` is the answer of `callOf_enc8b10b_of_present`, made of codewords of 10 bits. -/
theorem enc8b10bSucceedsExactlyOnPresentValues : Obligations.Enc8b10bSucceedsExactlyOnPresentValues := by
  intro r s
  refine ⟨(enc8b10b_ok_iff r s).trans (forall_mem_chunk_iff (fun b => present r (val b) = true) s 8).symm, fun out lbl hok => ?_⟩
  have h := callOf_enc8b10b_of_present ((enc8b10b_ok_iff r s).mp ⟨out, lbl, hok⟩)
  rw [hok] at h
  cases h
  refine ⟨units_length _ 10 _ fun _ _ => rom810_length _ _, by simp, fun i v hv => ?_⟩
  obtain ⟨hi, rfl⟩ := List.getElem?_eq_some_iff.mp hv
  rw [List.getElem_map, List.getElem_range]
  exact take_drop_units _ (fun _ => rom810_length _ _) (by simpa using hi)

/-- Settles O35: the error is the answer of `callOf_enc8b10b_of_absent`, and it stands whatever call comes after it. -/
theorem unknownSymbolIsTheFirstAbsentValue : Obligations.UnknownSymbolIsTheFirstAbsentValue := by
  refine ⟨fun r s v => ⟨fun herr => ?_, ?_⟩, fun r s tail v hs => ?_⟩
  · obtain h | ⟨n, hn, h, ha⟩ := present_or_first_absent r s
    · cases herr.symm.trans (callOf_enc8b10b_of_present h)
    · cases herr.symm.trans (callOf_enc8b10b_of_absent hn h ha)
      exact ⟨n, hn, rfl, ha, h⟩
  · rintro ⟨n, hn, rfl, ha, h⟩
    exact callOf_enc8b10b_of_absent hn h ha
  · obtain ⟨-, herr, -⟩ := splittingAtABlockBoundaryIsHarmless .enc8b10b r s tail hs
    exact herr v

/-! ## Some inputs under every admissible table (R158, R159) -/

/-- A sequence as long as the width is its own one block. -/
theorem chunk_of_length {b : BitSeq} {w : Nat} (hw : 0 < w) (hb : b.length = w) : chunk b w = [b] := by
  have hcount : ceilDiv b.length w = 1 := by simpa [hb] using ceilDiv_mul 1 hw
  have hread : memRead b 0 w = b := by simpa [hb, zeros] using memRead_zero_add b 0
  simp [chunk, hcount, hread]

/-- Blocks of the width, put together, are cut into themselves again (R110, R111). -/
theorem chunk_flatten_of_length {bs : List BitSeq} {w : Nat} (hw : 0 < w) (h : ∀ b ∈ bs, b.length = w) :
    chunk bs.flatten w = bs := by
  induction bs with
  | nil => simp [chunk, ceilDiv_zero w hw]
  | cons b bs ih =>
    obtain ⟨hb, hbs⟩ := List.forall_mem_cons.mp h
    rw [List.flatten_cons, chunk_append _ hw (by rw [hb, Nat.mod_self]), chunk_of_length hw hb, ih hbs, List.singleton_append]

/-- A read of zeros is the read of nothing: the zero fill beyond the input (R15). -/
theorem memRead_zeros (m a n : Nat) : memRead (zeros m) a n = memRead [] a n := memRead_append_zeros [] m a n

/-- 1 to 8 zeros are one block of the value 0, which an admissible table does not have (R158 case 3). -/
theorem callOf_enc8b10b_zeros {r : Roms} (habs : present r 0x00 = false) {n : Nat} (hn : 1 ≤ n) (hn' : n ≤ 8) :
    callOf r (zeros n) .enc8b10b = .unknownSymbol 0x00 := by
  have hval : val (memRead (zeros n) (8 * 0) 8) = 0x00 := by rw [memRead_zeros]; rfl
  have hlt : 0 < ceilDiv (zeros n).length 8 := by rw [lt_ceilDiv_iff _ _ _ (by decide), zeros_length]; omega
  rw [← hval] at habs ⊢
  exact callOf_enc8b10b_of_absent hlt (fun j hj => absurd hj (Nat.not_lt_zero j)) habs

/-- Equal bytes whose value has an entry are encoded one by one (R154). -/
theorem callOf_enc8b10b_replicate {r : Roms} {v : Nat} (hv : v < 2 ^ 8) (hp : present r v = true) (n : Nat) :
    callOf r (List.replicate n (bitsOf 8 v)).flatten .enc8b10b =
      .ok (List.replicate n (rom810 r v)).flatten (List.replicate n v) := by
  have hchunk : chunk (List.replicate n (bitsOf 8 v)).flatten 8 = List.replicate n (bitsOf 8 v) :=
    chunk_flatten_of_length (by decide) fun b hb => by rw [List.eq_of_mem_replicate hb, bitsOf_length]
  have hpresent : ∀ b ∈ List.replicate n (bitsOf 8 v), present r (val b) = true := fun b hb => by
    rw [List.eq_of_mem_replicate hb, val_bitsOf hv, hp]
  rw [callOf, callEnc8b10b, hchunk, enc8b10bLoop_of_present r hpresent]
  simp [List.flatMap_def, val_bitsOf hv]

/-- Settles O36: no block, the one block of value 0, and repetitions of the one value that every admissible table has. -/
theorem enc8b10bOnAdmissibleTables : Obligations.Enc8b10bOnAdmissibleTables := by
  rintro r ⟨hp, hword, habs⟩
  refine ⟨rfl, fun n => callOf_enc8b10b_zeros habs, fun n => ?_⟩
  rw [callOf_enc8b10b_replicate (by decide) hp n, rom810, hword]
  rfl

end Sys2Proof.Machine
end

section
/-! The 64B/66B framer: its block step and its call for either header, and where header and payload stand in the output. -/

namespace Sys2Proof.Machine

/-! ## The output by its frames (R173 to R178) -/

/-- One frame for each 64-bit block of the input: the header and then the block (R170, R173, R174). -/
def frames (h s : BitSeq) : BitSeq := (List.range (ceilDiv s.length 64)).flatMap fun j => h ++ memRead s (64 * j) 64

section
variable {h : BitSeq} (hh : h.length = 2) (s : BitSeq)
include hh

/-- A frame of any block has 66 bits (R175). -/
theorem frame_length (j : Nat) : (h ++ memRead s (64 * j) 64).length = 66 := by
  rw [List.length_append, memRead_length, hh]

theorem frames_length : (frames h s).length = 66 * ceilDiv s.length 64 :=
  units_length _ 66 _ fun j _ => frame_length hh s j

variable {s} {j k : Nat} (hj : j < ceilDiv s.length 64)
include hj

/-- Each frame starts with the header (R176). -/
theorem frames_header (hk : k < 2) : (frames h s)[66 * j + k]? = h[k]? := by
  rw [frames, units_getElem? _ 66 _ (fun j _ => frame_length hh s j) j k hj (by omega), List.getElem?_append_left (by omega)]

/-- Behind the header stand the input bits of the block, zero beyond the input (R177). -/
theorem frames_payload (hk : k < 64) : (frames h s)[66 * j + 2 + k]? = some (s.getD (64 * j + k) false) := by
  rw [frames, Nat.add_assoc, units_getElem? _ 66 _ (fun j _ => frame_length hh s j) j (2 + k) hj (by omega),
    List.getElem?_append_right (by omega), hh, Nat.add_sub_cancel_left, memRead_getElem? _ _ _ _ hk]

/-- Stripping the header of a frame leaves the block (R178). -/
theorem frames_strip : ((frames h s).drop (66 * j + 2)).take 64 = memRead s (64 * j) 64 := by
  refine List.ext_getElem? fun k => ?_
  rcases Nat.lt_or_ge k 64 with hk | hk
  · rw [List.getElem?_take_of_lt hk, List.getElem?_drop, frames_payload hh hj hk, memRead_getElem? _ _ _ _ hk]
  · rw [List.getElem?_take_eq_none hk, List.getElem?_eq_none (by rwa [memRead_length])]

omit hj

/-- Stripping the header of every frame gives the padded input back (R178). -/
theorem flatMap_frames_strip :
    ((List.range (ceilDiv s.length 64)).flatMap fun j => ((frames h s).drop (66 * j + 2)).take 64) =
      s ++ zeros (padLen s.length 64) := by
  rw [← chunk_flatten s (by decide), chunk, List.flatMap_def]
  exact congrArg List.flatten (List.map_congr_left fun j hj => frames_strip hh (List.mem_range.mp hj))

/-- Complementing the header complements the first two bits of every frame and no other bit (R174). -/
theorem frames_complement {n : Nat} {b : Bit} (hb : (frames h s)[n]? = some b) :
    (frames (h.map not) s)[n]? = some (if n % 66 < 2 then !b else b) := by
  have hh' : (h.map not).length = 2 := by rw [List.length_map, hh]
  obtain ⟨hn, -⟩ := List.getElem?_eq_some_iff.mp hb
  rw [frames_length hh] at hn
  have hj : n / 66 < ceilDiv s.length 64 := Nat.div_lt_of_lt_mul hn
  by_cases hk : n % 66 < 2
  · rw [← Nat.div_add_mod n 66, frames_header hh hj hk] at hb
    rw [if_pos hk, ← Nat.div_add_mod n 66, frames_header hh' hj hk, List.getElem?_map, hb, Option.map_some]
  · have hpos : n = 66 * (n / 66) + 2 + (n % 66 - 2) := by omega
    have hk64 : n % 66 - 2 < 64 := by omega
    rw [hpos, frames_payload hh hj hk64] at hb
    rw [if_neg hk, hpos, frames_payload hh' hj hk64, hb]

end

/-! ## The two commands (R173, R174) -/

/-- What a command has to do, block by block, to be the framer with header `h`. -/
structure FramesWith (h : BitSeq) (i : Instr) : Prop where
  header : h.length = 2
  width : blockWidth i = 64
  blockOut : ∀ r b, blockOut r b i = h ++ b
  blockLabels : ∀ b, blockLabels b i = []
  encodes : ∀ r input j, blockEncodes i r input j

theorem framesWith_frame66D : FramesWith [false, true] .frame66D :=
  ⟨rfl, rfl, fun _ _ => rfl, fun _ => rfl, blockEncodes_of_ne_enc8b10b Instr.noConfusion⟩

theorem framesWith_frame66C : FramesWith [true, false] .frame66C :=
  ⟨rfl, rfl, fun _ _ => rfl, fun _ => rfl, blockEncodes_of_ne_enc8b10b Instr.noConfusion⟩

/-- Each framing command is the framer with the header of its mode (R172). -/
theorem framesWith_of_mem {i : Instr} {h : BitSeq} (hi : (i, h) ∈ [(Instr.frame66D, [false, true]), (Instr.frame66C, [true, false])]) :
    FramesWith h i := by
  simp only [List.mem_cons, Prod.mk.injEq, List.not_mem_nil, or_false] at hi
  obtain ⟨rfl, rfl⟩ | ⟨rfl, rfl⟩ := hi
  · exact framesWith_frame66D
  · exact framesWith_frame66C

section
variable {h : BitSeq} {i : Instr} (hf : FramesWith h i)
include hf

theorem FramesWith.numBlocks (input : BitSeq) : numBlocks i input = ceilDiv input.length 64 := by
  rw [Machine.numBlocks, hf.width]

theorem FramesWith.blockNo (input : BitSeq) (j : Nat) : blockNo i input j = memRead input (64 * j) 64 := by
  rw [Machine.blockNo, hf.width, Nat.mul_comm]

theorem FramesWith.stagedOut (r : Roms) (input : BitSeq) :
    stagedOut i r input (Machine.numBlocks i input) = frames h input := by
  simp only [Machine.stagedOut, frames, hf.numBlocks, hf.blockNo, hf.blockOut]

/-- The block step of the framer, as one record. -/
theorem FramesWith.exec_block {s : State} (hb : s.status = .busy) (hlt : s.blk < ceilDiv s.inp.length 64) :
    exec i s = .next { s with out := s.out ++ (h ++ memRead s.inp (64 * s.blk) 64), blk := s.blk + 1 } := by
  rw [exec_encodes hb (hf.numBlocks s.inp ▸ hlt) (hf.encodes _ _ _), hf.blockOut, hf.blockLabels, List.append_nil, hf.blockNo]

/-- A whole call of the framer, with its FINISH. -/
theorem FramesWith.run_call {s : State} (hs : s.host = []) (input : BitSeq) :
    run (ceilDiv input.length 64 + 1) (startCall (encode i) input s) = .next { s with
      cmd := encode i, inp := input, blk := ceilDiv input.length 64, out := frames h input,
      lbl := [], ecode := .none, eval := 0, status := .done } := by
  have hrun := run_done s input hs i fun j _ => hf.encodes s.roms input j
  rwa [hf.stagedOut, stagedLabels_of_none hf.blockLabels, hf.numBlocks] at hrun

/-- The result of a call of the framer. -/
theorem FramesWith.callOf (r : Roms) (s : BitSeq) : callOf r s i = .ok (frames h s) [] := by
  rw [callOf_of_encodes fun j _ => hf.encodes r s j, hf.stagedOut, stagedLabels_of_none hf.blockLabels]

end

/-- Settles O23: step and call by `FramesWith`; the control header is the complement of the data header. -/
theorem framerPutsTheHeaderBeforeEachBlock : Obligations.FramerPutsTheHeaderBeforeEachBlock := by
  refine ⟨fun i h hi => ?_, fun r s dat ctl hdat hctl => ?_⟩
  · have hf := framesWith_of_mem hi
    exact ⟨fun _ => hf.exec_block, fun _ input _ hs => hf.run_call hs input⟩
  · cases (framesWith_frame66D.callOf r s).symm.trans hdat
    cases (framesWith_frame66C.callOf r s).symm.trans hctl
    exact ⟨by rw [frames_length rfl, frames_length rfl], fun _ _ => frames_complement (h := [false, true]) rfl⟩

/-- Settles O37: the output is `frames` with the mode's header, whose places and stripping are known for any header of two bits. -/
theorem framesKeepHeaderAndPayload : Obligations.FramesKeepHeaderAndPayload := by
  intro i h0 h1 hi r s
  have hf : FramesWith [h0, h1] i := framesWith_of_mem (by simpa using hi)
  refine ⟨_, hf.callOf r s, frames_length hf.header s, fun j hj => ⟨?_, ?_, fun k => ?_⟩, flatMap_frames_strip hf.header⟩
  · exact frames_header hf.header hj (k := 0) (by decide)
  · exact frames_header hf.header hj (k := 1) (by decide)
  · exact frames_payload hf.header hj

end Sys2Proof.Machine
end

section
/-! The Manchester encoder: its block step and its call, without and with the verification report, where the levels of a bit stand in
the output, and the fields of a verification record. -/

namespace Sys2Proof.Machine

/-! ## The two commands (R193, R196) -/

/-- What a command has to do, bit by bit, to be the Manchester encoder that reports `report b` on a bit `b`. -/
structure LevelsWith (report : Bit → List Label) (i : Instr) : Prop where
  width : blockWidth i = 1
  blockOut : ∀ r b, blockOut r b i = levelPair (b.getD 0 false)
  blockLabels : ∀ b, blockLabels b i = report (b.getD 0 false)
  encodes : ∀ r input j, blockEncodes i r input j

theorem levelsWith_manch : LevelsWith (fun _ => []) .manch :=
  ⟨rfl, fun _ _ => rfl, fun _ => rfl, blockEncodes_of_ne_enc8b10b Instr.noConfusion⟩

theorem levelsWith_manchVfy : LevelsWith (fun b => [vfy b]) .manchVfy :=
  ⟨rfl, fun _ _ => rfl, fun _ => rfl, blockEncodes_of_ne_enc8b10b Instr.noConfusion⟩

/-- Either command is the Manchester encoder with some report. -/
theorem exists_levelsWith {i : Instr} (hi : i ∈ [Instr.manch, .manchVfy]) : ∃ report, LevelsWith report i := by
  simp only [List.mem_cons, List.not_mem_nil, or_false] at hi
  obtain rfl | rfl := hi
  · exact ⟨_, levelsWith_manch⟩
  · exact ⟨_, levelsWith_manchVfy⟩

section
variable {report : Bit → List Label} {i : Instr} (hl : LevelsWith report i)
include hl

theorem LevelsWith.numBlocks (input : BitSeq) : numBlocks i input = input.length := by
  rw [Machine.numBlocks, hl.width, ceilDiv_one]

/-- The first bit of a block is the input bit at the cursor (R193). -/
theorem LevelsWith.blockNo_getD {input : BitSeq} {j : Nat} {b : Bit} (hb : input[j]? = some b) :
    (blockNo i input j).getD 0 false = b := by
  rw [blockNo, hl.width, Nat.mul_one, List.getD_eq_getElem?_getD, memRead_getElem? _ _ _ _ Nat.one_pos]
  simp [hb]

theorem LevelsWith.stagedOut (r : Roms) (input : BitSeq) :
    stagedOut i r input (Machine.numBlocks i input) = input.flatMap levelPair := by
  rw [← flatMap_chunk_blockOut, hl.width, chunk_one, List.flatMap_map]
  simp [hl.blockOut]

theorem LevelsWith.stagedLabels (input : BitSeq) :
    stagedLabels i input (Machine.numBlocks i input) = input.flatMap report := by
  rw [← flatMap_chunk_blockLabels, hl.width, chunk_one, List.flatMap_map]
  simp [hl.blockLabels]

/-- The block step of the encoder, as one record. -/
theorem LevelsWith.exec_block {s : State} {b : Bit} (hs : s.status = .busy) (hb : s.inp[s.blk]? = some b) :
    exec i s = .next { s with out := s.out ++ levelPair b, lbl := s.lbl ++ report b, blk := s.blk + 1 } := by
  obtain ⟨hlt, -⟩ := List.getElem?_eq_some_iff.mp hb
  rw [exec_encodes hs (hl.numBlocks s.inp ▸ hlt) (hl.encodes _ _ _), hl.blockOut, hl.blockLabels, hl.blockNo_getD hb]

/-- A whole call of the encoder, with its FINISH. -/
theorem LevelsWith.run_call {s : State} (hs : s.host = []) (input : BitSeq) :
    run (input.length + 1) (startCall (encode i) input s) = .next { s with
      cmd := encode i, inp := input, blk := input.length, out := input.flatMap levelPair,
      lbl := input.flatMap report, ecode := .none, eval := 0, status := .done } := by
  have hrun := run_done s input hs i fun j _ => hl.encodes s.roms input j
  rwa [hl.stagedOut, hl.stagedLabels, hl.numBlocks] at hrun

/-- The result of a call of the encoder. -/
theorem LevelsWith.callOf (r : Roms) (s : BitSeq) : callOf r s i = .ok (s.flatMap levelPair) (s.flatMap report) := by
  rw [callOf_of_encodes fun j _ => hl.encodes r s j, hl.stagedOut, hl.stagedLabels]

end

/-- The verification record has two values, one for each bit (R197). -/
theorem vfy_eq (b : Bit) : vfy b = if b then 13 else 2 := by cases b <;> rfl

/-- Settles O24: the encoder that reports nothing. -/
theorem manchesterEncodesEachBitAlone : Obligations.ManchesterEncodesEachBitAlone := by
  refine ⟨fun s b hs hb => ?_, fun s input _ hh => ?_⟩
  · rw [levelsWith_manch.exec_block hs hb, List.append_nil]
    rfl
  · have hrun := levelsWith_manch.run_call hh input
    rw [List.flatMap_eq_nil_iff.mpr fun _ _ => rfl] at hrun
    exact hrun

/-- Settles O25: the encoder that reports the record of each bit. -/
theorem verifyingManchesterAddsOneRecordABit : Obligations.VerifyingManchesterAddsOneRecordABit := by
  refine ⟨fun s b hs hb => ?_, fun s input _ hh => ?_⟩
  · rw [levelsWith_manchVfy.exec_block hs hb, vfy_eq]
    rfl
  · have hrun := levelsWith_manchVfy.run_call hh input
    rw [← List.map_eq_flatMap, funext vfy_eq] at hrun
    exact hrun

/-! ## The levels by their bits (R194) -/

theorem flatMap_levelPair_length (s : BitSeq) : (s.flatMap levelPair).length = 2 * s.length := by
  simp [List.length_flatMap, Nat.mul_comm]

/-- Level `k` of input bit `n` is level `k` of the pair of that bit (R194). -/
theorem flatMap_levelPair_getElem? {s : BitSeq} {n k : Nat} {b : Bit} (hb : s[n]? = some b) (hk : k < 2) :
    (s.flatMap levelPair)[2 * n + k]? = (levelPair b)[k]? := by
  induction s generalizing n with
  | nil => simp at hb
  | cons a s ih =>
    rw [List.flatMap_cons]
    cases n with
    | zero =>
      obtain rfl : a = b := by simpa using hb
      rw [Nat.mul_zero, Nat.zero_add, List.getElem?_append_left hk]
    | succ n =>
      rw [List.getElem?_append_right (by rw [levelPair_length]; omega), levelPair_length]
      have hpos : 2 * (n + 1) + k - 2 = 2 * n + k := by omega
      rw [hpos, ih (by simpa using hb)]

/-- A constant input gives the pair of its bit, repeated (R194). -/
theorem flatMap_levelPair_of_constant {s : BitSeq} {b : Bit} (h : s = List.replicate s.length b) :
    s.flatMap levelPair = (List.replicate s.length (levelPair b)).flatten :=
  (congrArg (List.flatMap levelPair) h).trans List.flatMap_replicate

/-- Settles O38: under either command the output is the level pairs of the bits, in order. -/
theorem manchesterLevelsFollowTheirBit : Obligations.ManchesterLevelsFollowTheirBit := by
  intro i hi r s
  obtain ⟨report, hl⟩ := exists_levelsWith hi
  refine ⟨_, _, hl.callOf r s, flatMap_levelPair_length s, fun n b hb => ⟨?_, ?_⟩, flatMap_levelPair_of_constant,
    flatMap_levelPair_of_constant⟩
  · simpa [levelPair, lowPhase] using flatMap_levelPair_getElem? hb (k := 0) (by decide)
  · simpa [levelPair, highPhase] using flatMap_levelPair_getElem? hb (k := 1) (by decide)

/-! ## The verification record (R197) -/

/-- The fields of a record: `BIT`, `FIRST`, `SECOND` and `DIR`, from bit 3 to bit 0. -/
theorem vfy_fields (b : Bit) : vfy b < 16 ∧ (vfy b).testBit 3 = b ∧ (vfy b).testBit 2 = xor b false ∧
    (vfy b).testBit 1 = xor b true ∧ (vfy b).testBit 0 = b := by
  cases b <;> decide

/-- Settles O39: the fields by the two bits, the record appended by the encoder's block step. -/
theorem verificationRecordFields : Obligations.VerificationRecordFields := by
  refine ⟨vfy_fields, vfy_eq false, vfy_eq true, rfl, rfl, fun s t h ht => ?_⟩
  obtain ⟨hlt, -, rfl⟩ := exec_next_busy h ht
  rw [levelsWith_manchVfy.numBlocks] at hlt
  have hb := List.getElem?_eq_getElem hlt
  have hrecord : blockLabels (blockNo .manchVfy s.inp s.blk) .manchVfy = [vfy s.inp[s.blk]] := by
    rw [levelsWith_manchVfy.blockLabels, levelsWith_manchVfy.blockNo_getD hb]
  exact ⟨_, hb, congrArg (s.lbl ++ ·) hrecord⟩

end Sys2Proof.Machine
end

section
/-! Which commands raise an error (R212), and several COREs side by side (R226, R64). -/

namespace Sys2Proof.Machine

/-- Settles O31: only the abort raises, and it is ENC8B10B's, at a block that the empty input does not have. -/
theorem onlyEnc8b10bRaises : Obligations.OnlyEnc8b10bRaises := by
  intro i s t h hquiet
  obtain ⟨hb, ⟨-, -, rfl⟩ | ⟨-, rfl⟩ | ⟨rfl, hlt, -, -⟩⟩ := exec_next h
  · exact ⟨fun he => Status.noConfusion (hb.symm.trans he), rfl, rfl⟩
  · exact ⟨Status.noConfusion, rfl, rfl⟩
  · have hempty : s.inp = [] := hquiet.resolve_left (· rfl)
    rw [hempty, numBlocks_nil] at hlt
    exact absurd hlt (Nat.not_lt_zero _)

/-- Everything a step of CORE `k` of several can do: that CORE's own step, put back in its place (R226). -/
theorem Cluster.stepAt_next {k : Nat} {cores after : Cluster} (h : Cluster.stepAt k cores = .next after) :
    ∃ s t, cores[k]? = some s ∧ step s = .next t ∧ after = cores.set k t := by
  unfold Cluster.stepAt at h
  split at h
  · cases h
  · split at h
    · exact ⟨_, _, ‹_›, ‹_›, (Host.Outcome.next.inj h).symm⟩
    · cases h
    · cases h

/-- Putting a state with the same ROMs in the place of one CORE keeps the ROMs shared (R64). -/
theorem Cluster.SharesRoms.set {cores : Cluster} (hshare : cores.SharesRoms) {k : Nat} {s t : State}
    (hs : cores[k]? = some s) (hr : t.roms = s.roms) : Cluster.SharesRoms (cores.set k t) := by
  have holds : ∀ u ∈ cores.set k t, u.roms = s.roms := fun u hu => by
    obtain hu | rfl := List.mem_or_eq_of_mem_set hu
    · exact hshare u hu s (List.mem_of_getElem? hs)
    · exact hr
  exact fun u hu v hv => (holds u hu).trans (holds v hv).symm

/-- Settles O51: the cluster after the step is `cores.set k t`, and CORE `k`'s own step keeps its ROMs. -/
theorem coresDoNotAffectEachOther : Obligations.CoresDoNotAffectEachOther := by
  intro k cores after h
  obtain ⟨s, t, hs, hstep, rfl⟩ := Cluster.stepAt_next h
  have hk : k < cores.length := (List.getElem?_eq_some_iff.mp hs).1
  exact ⟨List.length_set, fun n hn => List.getElem?_set_ne hn.symm, ⟨s, t, hs, hstep, List.getElem?_set_self hk⟩,
    fun hshare => hshare.set hs (noStepWritesARom s t hstep)⟩

end Sys2Proof.Machine
end

section
/-! Reset (R40, R250), and the exact number of CORE steps a call takes (R263). -/

namespace Sys2Proof.Machine

/-- The state after reset is one that a further reset leaves as it is. -/
theorem hostReset_resetWith (r : Roms) : hostReset (State.resetWith r) = State.resetWith r := rfl

/-- Settles O10: the register lemmas of `hostReset`; the reset state's own values stand in its definition. -/
theorem resetClearsEveryCallRegister : Obligations.ResetClearsEveryCallRegister :=
  ⟨fun _ => ⟨hostReset_roms _, hostReset_cmd _, hostReset_inp _, hostReset_blk _, hostReset_out _, hostReset_lbl _,
      hostReset_status _, hostReset_ecode _, hostReset_eval _⟩,
    rfl, rfl, rfl, rfl, rfl, rfl, rfl, rfl⟩

/-- The state after reset meets the invariant under any ROMs, as every state just reset does. -/
theorem inv_resetWith (r : Roms) : Inv (State.resetWith r) := hostReset_resetWith r ▸ inv_hostReset (State.resetWith r)

/-- Settles O43: the default ROMs are one case of `inv_resetWith`. -/
theorem invariantHoldsAtReset : Obligations.InvariantHoldsAtReset := ⟨inv_resetWith, inv_resetWith defaultRoms⟩

/-- A command's call that answers `Ok` met no block without an entry (R155, R212). -/
theorem encodes_of_callOf_ok {i : Instr} {r : Roms} {s out : BitSeq} {lbl : List Label} (h : callOf r s i = .ok out lbl) :
    ∀ j, j < numBlocks i s → blockEncodes i r s j := by
  obtain hall | ⟨rfl, n, hn, hbefore, habs⟩ := encodes_or_first_absent i r s
  · exact hall
  · cases h.symm.trans (callOf_of_absent hn hbefore habs)

/-- A command's call that answers `UnknownSymbol` is ENC8B10B's, and names the value of its first block without an entry (R155, R211). -/
theorem first_absent_of_callOf_unknownSymbol {i : Instr} {r : Roms} {s : BitSeq} {v : Nat}
    (h : callOf r s i = .unknownSymbol v) :
    i = .enc8b10b ∧ ∃ n, n < numBlocks .enc8b10b s ∧ v = val (blockNo .enc8b10b s n) ∧
      (∀ j, j < n → blockEncodes .enc8b10b r s j) ∧ present r (val (blockNo .enc8b10b s n)) = false := by
  obtain hall | ⟨rfl, n, hn, hbefore, habs⟩ := encodes_or_first_absent i r s
  · cases h.symm.trans (callOf_of_encodes hall)
  · exact ⟨rfl, n, hn, CallResult.unknownSymbol.inj (h.symm.trans (callOf_of_absent hn hbefore habs)), hbefore, habs⟩

/-- While its first `n` blocks encode, a call is BUSY with the cursor at the number of its steps (R30, R36). -/
theorem run_busy_at_cursor {s : State} {input : BitSeq} (hh : s.host = []) {i : Instr} {n : Nat} (hn : n ≤ numBlocks i input)
    (he : ∀ j, j < n → blockEncodes i s.roms input j) :
    ∀ j, j ≤ n → ∃ t, run j (startCall (encode i) input s) = .next t ∧ t.status = .busy ∧ t.blk = j := fun j hj =>
  ⟨_, run_blocks s input hh i j (hj.trans hn) fun m hm => he m (hm.trans_le hj), rfl, rfl⟩

/-- Settles O47: a word that is no command ends at START; a command's call runs its encoding blocks one a step, then FINISH or the
abort is the last step. -/
theorem callTakesExactlyItsSteps : Obligations.CallTakesExactlyItsSteps := by
  intro s c input _ hh
  cases hc : decode c with
  | error e =>
    have hcall := call_of_invalid hc s.roms input
    refine ⟨fun out lbl hok => ?_, fun v herr => ?_, fun _ => ⟨?_, startCall_blk s c input⟩⟩
    · cases hcall.symm.trans hok
    · cases hcall.symm.trans herr
    · rw [startCall_of_invalid s input hc]
  | ok i =>
    obtain rfl := encode_of_decode hc
    rw [callBlocks_encode, call_of_command hc]
    refine ⟨fun out lbl hok => ?_, fun v herr => ?_, fun hinv => absurd hinv (callOf_ne_invalidInput _ _ _)⟩
    · have hall := encodes_of_callOf_ok hok
      exact ⟨⟨_, run_done s input hh i hall, rfl, rfl⟩, run_busy_at_cursor hh le_rfl hall⟩
    · obtain ⟨rfl, n, hn, rfl, hbefore, habs⟩ := first_absent_of_callOf_unknownSymbol herr
      exact ⟨n, hn, congrArg val (blockNo_enc8b10b input n), ⟨_, run_abort s input hh n hn hbefore habs, rfl, rfl⟩,
        run_busy_at_cursor hh hn.le hbefore⟩

end Sys2Proof.Machine
end

section
/-! The place-value sum of a block, and START of a finite build. -/

namespace Sys2Proof.Machine

/-- A block's value is the sum of its bits, each by the weight of its place, the first bit weighing the most (R13). -/
theorem val_eq_sum (b : BitSeq) :
    val b = ∑ k ∈ Finset.range b.length, bitVal (b.getD k false) * 2 ^ (b.length - 1 - k) := by
  induction b with
  | nil => rfl
  | cons x xs ih =>
    rw [val, ih, List.length_cons, Finset.sum_range_succ']
    simp [Nat.sub_sub, Nat.add_comm]

/-- Settles O4: the sum by induction on the block; the two inverses are `val_bitsOf` and `bitsOf_val`. -/
theorem blockValueAndItsBitsAreInverse : Obligations.BlockValueAndItsBitsAreInverse := by
  refine ⟨val_eq_sum, fun w v k hk => ?_, bitsOf_length, fun w v => val_bitsOf, fun b => ⟨val_lt b, bitsOf_val b⟩⟩
  rw [bitsOf_getElem? v hk, Nat.testBit_eq_decide_div_mod_eq]

/-- A finite build refuses an input longer than its `LEN_MAX` (D11). -/
theorem hostStartBounded_of_lt {n : Nat} {input : BitSeq} (h : n < input.length) (c : Word8) (s : State) :
    hostStartBounded n c input s = .refused .inputTooLong := if_pos h

/-- On any other input START of a finite build is START of the unbounded model (U11). -/
theorem hostStartBounded_of_le {n : Nat} {input : BitSeq} (h : input.length ≤ n) (c : Word8) (s : State) :
    hostStartBounded n c input s = hostStart c input s := if_neg h.not_gt

/-- Settles O14: the two branches of `hostStartBounded`. -/
theorem finiteBuildRefusesAndNeverTruncates : Obligations.FiniteBuildRefusesAndNeverTruncates :=
  fun _ c _ s => ⟨fun h => hostStartBounded_of_lt h c s, fun h => hostStartBounded_of_le h c s⟩

end Sys2Proof.Machine
end
